-- ==== Sys2Proof/Word.lean ====
section
/-! DEFINITION. The two widths of 00_scope.md R2 and the bit patterns of one width. -/

namespace Sys2Proof

/-- The width of a command's instance, 32 or 64 (00_scope.md R2, R9). No other width exists. -/
inductive Width where
  | w32
  | w64
  deriving DecidableEq, Repr

/-- W, the number of bits (00_scope.md R9). -/
abbrev Width.bits : Width → Nat
  | .w32 => 32
  | .w64 => 64

/-- A W-bit pattern: the `uW` of 00_scope.md R16. Bit 0 is the least significant (R15). -/
abbrev Pattern (w : Width) : Type := BitVec w.bits

end Sys2Proof
end

