-- ==== Sys2Proof/Config.lean ====
section
/-! DEFINITION. What an implementation fixes: the elaboration parameters of 00_scope.md R11 to R14, and the record of
width-specific constants that elaboration checks (00_scope.md R8, 70_reset_and_hazards.md R212). -/

namespace Sys2Proof

/-- The Boolean elaboration parameters. Nothing changes them at run time (10_state.md R33). -/
structure Params where
  /-- `P_HAS_SIGNED_VIEW` (R12): do `f2i32`, `f2i64`, `i2f32` and `i2f64` exist. -/
  hasSignedView : Bool
  /-- `P_HAS_DIAG` (R13): does `recompose` compute its diagnostic. -/
  hasDiag : Bool
  /-- `P_FLAG_IMPLICIT_BIT` (R14): is a materialised implicit bit an invalid input of `recompose`. -/
  flagImplicitBit : Bool
  deriving DecidableEq, Repr

/-- The spec's defaults (00_scope.md R12, R13, R14). -/
def Params.specDefault : Params where
  hasSignedView := true
  hasDiag := true
  flagImplicitBit := false

/-- `P_LATENCY` (00_scope.md R11), `OPEN`: clock cycles from a command to its results. It has no body, so nothing can be
proved of its value, and no command reads it (70_reset_and_hazards.md R216). Only the host's read of outputs that no
command has driven yet asks whether it is 0 (70_reset_and_hazards.md R211). -/
opaque Config.pLatency : Nat

/-- One column of the constants table of 00_scope.md R8, as an instance of the block carries it. -/
structure WidthConstants where
  /-- W -/
  width : Nat
  /-- `EXP_BITS` -/
  expBits : Nat
  /-- `SIGNIFICAND_BITS`, written SB -/
  significandBits : Nat
  /-- `EXP_BIAS` -/
  expBias : Int
  /-- `EXP_SHIFT` -/
  expShift : Nat
  /-- `RAW_EXP_MAX_VALID` -/
  rawExpMaxValid : Nat
  /-- `RAW_EXP_RESERVED` -/
  rawExpReserved : Nat
  /-- `EXP_MIN` -/
  expMin : Int
  /-- `EXP_NORMAL_MIN` -/
  expNormalMin : Int
  /-- `EXP_MAX` -/
  expMax : Int
  /-- `EXP_MAX_RESERVED` -/
  expMaxReserved : Int
  /-- `SIGN_MASK` -/
  signMask : Nat
  /-- `EXP_MASK` -/
  expMask : Nat
  /-- `SIGNIFICAND_MASK` -/
  significandMask : Nat
  /-- `IMPLICIT_BIT` -/
  implicitBit : Nat
  /-- `UINT_MAX` -/
  uintMax : Nat
  deriving DecidableEq, Repr

end Sys2Proof
end

