-- ==== Sys2Proof/Syntax.lean ====
section
/-! DEFINITION. The sixteen operations of 30_encoding.md R72, one constructor per row of the opcode table. An operation
has no operand of its own: its operands come whole from the input ports (30_encoding.md R70, R75). -/

namespace Sys2Proof

/-- The operations, in the table's order (30_encoding.md R72). -/
inductive Instr where
  /-- float_to_bits, W = 32 (40_reinterpret.md R101) -/
  | f2b32
  /-- float_to_bits, W = 64 (R102) -/
  | f2b64
  /-- bits_to_float, W = 32 (R103) -/
  | b2f32
  /-- bits_to_float, W = 64 (R104) -/
  | b2f64
  /-- signed float_to_int_bits, W = 32, optional (R105) -/
  | f2i32
  /-- signed float_to_int_bits, W = 64, optional (R106) -/
  | f2i64
  /-- signed int_bits_to_float, W = 32, optional (R107) -/
  | i2f32
  /-- signed int_bits_to_float, W = 64, optional (R108) -/
  | i2f64
  /-- decompose, W = 32 (41_codec.md R125) -/
  | dec32
  /-- decompose, W = 64 (R126) -/
  | dec64
  /-- recompose, W = 32 (R135) -/
  | rec32
  /-- recompose, W = 64 (R136) -/
  | rec64
  /-- distance, W = 32 (42_distance.md R168) -/
  | dst32
  /-- distance, W = 64 (R169) -/
  | dst64
  /-- classify, W = 32 (41_codec.md R127) -/
  | cls32
  /-- classify, W = 64 (R128) -/
  | cls64
  deriving DecidableEq, Repr

/-- The width an operation runs at, the `WSEL` field of its row (30_encoding.md R71, R72). -/
def Instr.width : Instr → Width
  | .f2b32 | .b2f32 | .f2i32 | .i2f32 | .dec32 | .rec32 | .dst32 | .cls32 => .w32
  | .f2b64 | .b2f64 | .f2i64 | .i2f64 | .dec64 | .rec64 | .dst64 | .cls64 => .w64

/-- The operations of the optional signed view (00_scope.md R12). -/
def Instr.isSignedView : Instr → Bool
  | .f2i32 | .f2i64 | .i2f32 | .i2f64 => true
  | .f2b32 | .f2b64 | .b2f32 | .b2f64 | .dec32 | .dec64 | .rec32 | .rec64 | .dst32 | .dst64 | .cls32 | .cls64 => false

end Sys2Proof
end

