-- ==== Sys2Proof/WellFormed.lean ====
section
/-! DEFINITION. Which operations a build of the block has (00_scope.md R12). An operation has no fields, so presence is
the only check there is. -/

namespace Sys2Proof

/-- The operation exists in a build with parameters `p`: an operation of the signed view needs `P_HAS_SIGNED_VIEW`
(00_scope.md R12, 30_encoding.md R73). -/
def Instr.wf (p : Params) (i : Instr) : Bool :=
  !i.isSignedView || p.hasSignedView

end Sys2Proof
end

