-- ==== Sys2Proof/Decode.lean ====
section
/-! DEFINITION. The decoder of 30_encoding.md R73, total on all 32 values of the operation select, and the encoder,
written from the `op` column of 30_encoding.md R72. -/

namespace Sys2Proof

/-- Why an operation select names no operation (30_encoding.md R73). Both are illegal operations for the machine
(60_exceptions.md R184); the name only says which line of the decoder it was. -/
inductive DecodeError where
  /-- `FUNC` is one of the reserved codes 1000 to 1111. -/
  | reservedFunction
  /-- `FUNC` is 0010 or 0011 and the build has no signed view. -/
  | signedViewAbsent
  deriving DecidableEq, Repr

/-- The `WSEL` field, `op[0]` (30_encoding.md R70, R71). -/
def widthSelect (op : BitVec 5) : Width :=
  if op.getLsbD 0 = false then .w32 else .w64

/-- The `FUNC` field, `op[4:1]` (30_encoding.md R70). -/
def functionCode (op : BitVec 5) : BitVec 4 :=
  op.extractLsb' 1 4

/-- The two mnemonics of a row of 30_encoding.md R72; `none` for the reserved codes. -/
def operationOf (func : BitVec 4) (w : Width) : Option Instr :=
  match func.toNat, w with
  | 0, .w32 => some .f2b32
  | 0, .w64 => some .f2b64
  | 1, .w32 => some .b2f32
  | 1, .w64 => some .b2f64
  | 2, .w32 => some .f2i32
  | 2, .w64 => some .f2i64
  | 3, .w32 => some .i2f32
  | 3, .w64 => some .i2f64
  | 4, .w32 => some .dec32
  | 4, .w64 => some .dec64
  | 5, .w32 => some .rec32
  | 5, .w64 => some .rec64
  | 6, .w32 => some .dst32
  | 6, .w64 => some .dst64
  | 7, .w32 => some .cls32
  | 7, .w64 => some .cls64
  | _, _ => none

/-- `decode` of 30_encoding.md R73, for a build with parameters `p`. -/
def decode (p : Params) (op : BitVec 5) : Except DecodeError Instr :=
  match operationOf (functionCode op) (widthSelect op) with
  | none => .error .reservedFunction
  | some i => if i.wf p then .ok i else .error .signedViewAbsent

/-- The operation select of an operation, the `op` column of 30_encoding.md R72. -/
def encode : Instr → BitVec 5
  | .f2b32 => 0x00#5
  | .f2b64 => 0x01#5
  | .b2f32 => 0x02#5
  | .b2f64 => 0x03#5
  | .f2i32 => 0x04#5
  | .f2i64 => 0x05#5
  | .i2f32 => 0x06#5
  | .i2f64 => 0x07#5
  | .dec32 => 0x08#5
  | .dec64 => 0x09#5
  | .rec32 => 0x0A#5
  | .rec64 => 0x0B#5
  | .dst32 => 0x0C#5
  | .dst64 => 0x0D#5
  | .cls32 => 0x0E#5
  | .cls64 => 0x0F#5

/-- The operation select in an opcode-table word of `nbits` bits. The select is 5 bits wide and the port has no more, so
of a word of whole bytes the bits above bit 4 reach nothing (DESIGN CHOICE, log entry 6). -/
def tableWordSelect (nbits w : Nat) : BitVec 5 :=
  BitVec.ofNat 5 (w % 2 ^ nbits)

/-- What the decoder reads from an opcode-table word, in a build with the spec's default parameters. -/
def decodeTableWord (nbits w : Nat) : Option Instr :=
  match decode Params.specDefault (tableWordSelect nbits w) with
  | .ok i => some i
  | .error _ => none

end Sys2Proof
end

