-- ==== Sys2Proof/Machine/Constants.lean ====
section
/-! DEFINITION. The width-specific constants of 00_scope.md R8, and the elaboration check of R9 and
70_reset_and_hazards.md R212. -/

namespace Sys2Proof.Machine

/-- The table of 00_scope.md R8. -/
def constants : Width → WidthConstants
  | .w32 =>
    { width := 32, expBits := 8, significandBits := 23, expBias := 127, expShift := 23,
      rawExpMaxValid := 254, rawExpReserved := 255,
      expMin := -127, expNormalMin := -126, expMax := 127, expMaxReserved := 128,
      signMask := 0x80000000, expMask := 0x7F800000, significandMask := 0x007FFFFF,
      implicitBit := 0x00800000, uintMax := 0xFFFFFFFF }
  | .w64 =>
    { width := 64, expBits := 11, significandBits := 52, expBias := 1023, expShift := 52,
      rawExpMaxValid := 2046, rawExpReserved := 2047,
      expMin := -1023, expNormalMin := -1022, expMax := 1023, expMaxReserved := 1024,
      signMask := 0x8000000000000000, expMask := 0x7FF0000000000000, significandMask := 0x000FFFFFFFFFFFFF,
      implicitBit := 0x0010000000000000, uintMax := 0xFFFFFFFFFFFFFFFF }

/-- `SIGN_MASK` as a pattern. -/
def signMask (w : Width) : Pattern w := BitVec.ofNat w.bits (constants w).signMask
/-- `EXP_MASK` as a pattern. -/
def expMask (w : Width) : Pattern w := BitVec.ofNat w.bits (constants w).expMask
/-- `SIGNIFICAND_MASK` as a pattern. -/
def significandMask (w : Width) : Pattern w := BitVec.ofNat w.bits (constants w).significandMask
/-- `IMPLICIT_BIT` as a pattern. -/
def implicitBit (w : Width) : Pattern w := BitVec.ofNat w.bits (constants w).implicitBit
/-- `UINT_MAX` as a pattern. -/
def uintMax (w : Width) : Pattern w := BitVec.ofNat w.bits (constants w).uintMax

/-- The constants a width instance must have, computed from the layout alone: `1 + EXP_BITS + SB = W`, the masks that
layout gives, and the bias and exponent bounds an exponent field of that width gives (00_scope.md R8 and section 6). -/
def constantsFromLayout (width expBits : Nat) : WidthConstants :=
  let sb := width - 1 - expBits
  let bias : Int := 2 ^ (expBits - 1) - 1
  { width := width, expBits := expBits, significandBits := sb, expBias := bias, expShift := sb,
    rawExpMaxValid := 2 ^ expBits - 2, rawExpReserved := 2 ^ expBits - 1,
    expMin := -bias, expNormalMin := 1 - bias, expMax := 2 ^ expBits - 2 - bias,
    expMaxReserved := 2 ^ expBits - 1 - bias,
    signMask := 2 ^ (width - 1), expMask := (2 ^ expBits - 1) * 2 ^ sb, significandMask := 2 ^ sb - 1,
    implicitBit := 2 ^ sb, uintMax := 2 ^ width - 1 }

/-- The check elaboration makes on the constants its two instances were given (70_reset_and_hazards.md R212): the widths
are 32 and 64, and every constant is that of 00_scope.md R8. -/
def elaborationCheck (narrow wide : WidthConstants) : Bool :=
  decide (narrow = constantsFromLayout 32 8) && decide (wide = constantsFromLayout 64 11)

end Sys2Proof.Machine
end

