-- ==== Sys2Proof/Machine/State.lean ====
section
/-! DEFINITION. The ports of LEFC, the host's side of them, and the machine after reset. LEFC itself has no state
(10_state.md R30): State holds its ports, its elaboration parameters, and the host's actions and collected values. -/

namespace Sys2Proof.Machine

/-- The input ports of a command (10_state.md R36). -/
structure InPorts where
  /-- operation select: `op[0]` is the width, `op[4:1]` the function -/
  op : BitVec 5
  /-- first operand -/
  a : BitVec 64
  /-- second operand of `distance` -/
  b : BitVec 64
  /-- `f_sign`, two's complement -/
  fSign : BitVec 8
  /-- `f_exp`, two's complement, unbiased -/
  fExp : BitVec 16
  /-- `f_sig`, unsigned -/
  fSig : BitVec 64
  deriving DecidableEq, Repr

/-- The output ports of a command (10_state.md R37). -/
structure OutPorts where
  /-- main result -/
  r : BitVec 64
  /-- `o_sign`, two's complement -/
  oSign : BitVec 8
  /-- `o_exp`, two's complement -/
  oExp : BitVec 16
  /-- `o_sig`, unsigned -/
  oSig : BitVec 64
  /-- `o_class` -/
  oClass : BitVec 3
  /-- `o_err` -/
  oErr : BitVec 1
  /-- `o_diag` -/
  oDiag : BitVec 1
  /-- `o_illegal` -/
  oIllegal : BitVec 1
  deriving DecidableEq, Repr

/-- What the host can do to LEFC. An action lands between commands (60_exceptions.md R194). -/
inductive HostAction where
  /-- Present one command, all its ports at once (70_reset_and_hazards.md R215). -/
  | present (c : InPorts)
  /-- Read the output ports and keep the values (95_test_vectors.md Part 3). -/
  | sample
  /-- Assert and release a reset input, where the implementation has one (70_reset_and_hazards.md R210). -/
  | assertReset
  deriving DecidableEq, Repr

/-- Why the machine stops with a fault. -/
inductive Fault where
  /-- The host read the output ports while no command's results are valid: before the first result, or since reset was
  asserted (70_reset_and_hazards.md R211, 92_eei_decisions.md D16, 93_implementation_defined.md I6). Raised by the host
  action `sample` alone, never by an operation. Safe: nothing is claimed of the unspecified outputs. -/
  | outputsNotValid
  deriving DecidableEq, Repr

/-- Why the machine has no meaning for an instruction. -/
inductive Refusal where
  /-- The instruction has no meaning in the model. Raised by nothing: every operation has its meaning. Safe. -/
  | notModelled (mnemonic : String)
  deriving DecidableEq, Repr

structure State where
  /-- Elaboration parameters of the build; no step writes them (10_state.md R33, log entry 1). -/
  params : Params
  /-- The input ports: the command presented last (10_state.md R36). -/
  inp : InPorts
  /-- The output ports (10_state.md R37). `none`: no command's results are valid, so the outputs are unspecified and
  have no value (70_reset_and_hazards.md R211, log entry 4). -/
  out : Option OutPorts
  /-- The host's actions still to come, next one first (10_state.md R34, log entry 2). -/
  schedule : List HostAction
  /-- The output tuples the host has read, oldest first (95_test_vectors.md Part 3, log entry 2). -/
  collected : List OutPorts
  deriving DecidableEq, Repr

/-- Every input port 0: the value an unnamed port has in the command syntax (30_encoding.md R76). -/
def InPorts.zero : InPorts where
  op := 0
  a := 0
  b := 0
  fSign := 0
  fExp := 0
  fSig := 0

/-- The block elaborated with parameters `p`, out of reset, before the host did anything (70_reset_and_hazards.md R210
to R213). No result is valid (R211); the input ports stand at 0 (DESIGN CHOICE, log entry 5). -/
def State.elaborated (p : Params) : State where
  params := p
  inp := InPorts.zero
  out := none
  schedule := []
  collected := []

/-- The machine right after reset, in the build with the spec's default parameters (00_scope.md R12 to R14). -/
def State.reset : State :=
  State.elaborated Params.specDefault

end Sys2Proof.Machine
end

