-- ==== Sys2Proof/Machine/Operands.lean ====
section
/-! DEFINITION. Operand assembly (30_encoding.md R75), the fields of a pattern (20_memory.md R53), and the extension of
results onto the output ports (10_state.md R40, R41). -/

namespace Sys2Proof.Machine

/-- `in.a[W-1:0]` (30_encoding.md R75). At W = 32 the upper half of the port is not read. -/
def operandA (w : Width) (c : InPorts) : Pattern w := c.a.setWidth w.bits

/-- `in.b[W-1:0]` (30_encoding.md R75). -/
def operandB (w : Width) (c : InPorts) : Pattern w := c.b.setWidth w.bits

/-- `sint(in.f_sign)` (30_encoding.md R75). -/
def operandSign (c : InPorts) : Int := c.fSign.toInt

/-- `sint(in.f_exp)` (30_encoding.md R75). -/
def operandExponent (c : InPorts) : Int := c.fExp.toInt

/-- `in.f_sig[W-1:0]` (30_encoding.md R75). -/
def operandSignificand (w : Width) (c : InPorts) : Pattern w := c.fSig.setWidth w.bits

/-- Is bit `W-1`, the sign bit, set (00_scope.md R15). -/
def signBitSet (w : Width) (u : Pattern w) : Bool := (u &&& signMask w) != 0

/-- The raw exponent, bits `[W-2:SB]`, as a number (00_scope.md R15). -/
def rawExponent (w : Width) (u : Pattern w) : Nat := ((u &&& expMask w) >>> (constants w).expShift).toNat

/-- The raw significand, bits `[SB-1:0]`, in place (00_scope.md R15). -/
def rawSignificand (w : Width) (u : Pattern w) : Pattern w := u &&& significandMask w

/-- The pattern with its sign bit cleared (42_distance.md R164). -/
def magnitude (w : Width) (u : Pattern w) : Pattern w := u &&& ~~~(signMask w)

/-- `zext_64` (10_state.md R41). -/
def zext64 {w : Width} (u : Pattern w) : BitVec 64 := u.setWidth 64

/-- `sext_64` (10_state.md R41). -/
def sext64 {w : Width} (u : Pattern w) : BitVec 64 := u.signExtend 64

/-- The encoding of a sign on `o_sign`: 0xFF for a negative one, 0x01 otherwise (10_state.md R40). -/
def signPort (sign : Int) : BitVec 8 := if sign < 0 then 0xFF#8 else 0x01#8

/-- `sext_16` of an exponent, for `o_exp` (10_state.md R40). -/
def exponentPort (exponent : Int) : BitVec 16 := BitVec.ofInt 16 exponent

/-- A flag on its 1-bit port. -/
def flagPort (f : Bool) : BitVec 1 := BitVec.ofBool f

end Sys2Proof.Machine
end

