-- ==== Sys2Proof/Machine/Flags.lean ====
section
/-! DEFINITION. The conditions behind `o_err` and `o_diag` (41_codec.md R130, R131, R134). -/

namespace Sys2Proof.Machine

/-- `err_exp` (41_codec.md R130): the exponent lies outside [`EXP_MIN`, `EXP_MAX_RESERVED`]. -/
def errExponent (w : Width) (exponent : Int) : Bool :=
  decide (exponent < (constants w).expMin) || decide (exponent > (constants w).expMaxReserved)

/-- `pre_sig` (41_codec.md R131): the significand as it goes into the field, before the mask. -/
def preSignificand (w : Width) (exponent : Int) (significand : Pattern w) : Pattern w :=
  if exponent = (constants w).expMin then significand >>> 1 else significand

/-- `allowed` (41_codec.md R129, R131): the bits `pre_sig` may have without an error. -/
def allowedBits (w : Width) (p : Params) (exponent : Int) : Pattern w :=
  if exponent = (constants w).expMin ∨ p.flagImplicitBit = true then significandMask w
  else significandMask w ||| implicitBit w

/-- `err_sig` (41_codec.md R131): `pre_sig` has a bit outside the allowed set. -/
def errSignificand (w : Width) (p : Params) (exponent : Int) (significand : Pattern w) : Bool :=
  (preSignificand w exponent significand &&& ~~~(allowedBits w p exponent)) != 0

/-- `err` (41_codec.md R129): both causes share one flag. -/
def errFlag (w : Width) (p : Params) (exponent : Int) (significand : Pattern w) : Bool :=
  errExponent w exponent || errSignificand w p exponent significand

/-- `diag` (41_codec.md R134): computed only where the build has it and no error is flagged. -/
def diagFlag (p : Params) (err mismatch : Bool) : Bool :=
  p.hasDiag && !err && mismatch

end Sys2Proof.Machine
end

