-- ==== Sys2Proof/Machine/Ops.lean ====
section
/-! DEFINITION. The shared operations over the output ports: driving them, the illegal operation, and the host's side.
LEFC takes no exception and returns from none (60_exceptions.md R180, R187, R188); `illegal` is the one thing that
happens to a command instead of its operation (00_scope.md R17, 60_exceptions.md R184). -/

namespace Sys2Proof.Machine

/-- Every output port 0, the idle value of 10_state.md R38. -/
def idlePorts : OutPorts where
  r := 0
  oSign := 0
  oExp := 0
  oSig := 0
  oClass := 0
  oErr := 0
  oDiag := 0
  oIllegal := 0

/-- What an illegal operation drives (60_exceptions.md R184). -/
def illegalPorts : OutPorts := { idlePorts with oIllegal := 1 }

/-- The current command drives all output ports at once (20_memory.md R57) and touches nothing else. -/
def drive (o : OutPorts) (s : State) : State := { s with out := some o }

/-- A command whose one result is `r` (10_state.md R38). -/
def driveResult (r : BitVec 64) (s : State) : State := drive { idlePorts with r := r } s

/-- `illegal()` (00_scope.md R17). -/
def illegal (s : State) : State := drive illegalPorts s

/-- An operation of the signed view: its result where the build has the view, an illegal operation where it has not
(00_scope.md R12, 30_encoding.md R73, log entry 8). -/
def driveSignedView (r : BitVec 64) (s : State) : State :=
  if s.params.hasSignedView = true then driveResult r s else illegal s

/-- A reset input asserted and released: the outputs are unspecified again, and nothing else is touched
(70_reset_and_hazards.md R210, R211, log entry 9). -/
def resetOutputs (s : State) : State := { s with out := none }

/-- The command's ports are captured together (70_reset_and_hazards.md R215). -/
def capture (c : InPorts) (s : State) : State := { s with inp := c }

/-- The host keeps an output tuple it has read (95_test_vectors.md Part 3). -/
def collect (o : OutPorts) (s : State) : State := { s with collected := s.collected ++ [o] }

/-- Elaboration and boot (00_scope.md R9, 70_reset_and_hazards.md R212, R213): with wrong constants there is no machine,
otherwise the block stands ready with nothing to initialise. -/
def elaborate (narrow wide : WidthConstants) (p : Params) : Option State :=
  if elaborationCheck narrow wide = true then some (State.elaborated p) else none

end Sys2Proof.Machine
end

