-- ==== Sys2Proof/Machine/Codec.lean ====
section
/-! DEFINITION. The field codec of 41_codec.md: DECOMP_W, CLASS_W and RECOMP_W, and the operations dec, rec and cls. -/

namespace Sys2Proof.Machine

/-- `Class`: exactly five values (41_codec.md R121). -/
inductive FpClass where
  | nan
  | inf
  | zero
  | subnormal
  | normal
  deriving DecidableEq, Repr

/-- The code of a class on `o_class` (41_codec.md R121). -/
def classCode : FpClass → BitVec 3
  | .nan => 0
  | .inf => 1
  | .zero => 2
  | .subnormal => 3
  | .normal => 4

/-- What DECOMP_W returns: `Fields<W>` and the class (41_codec.md R120, R122). -/
structure Decomposed (w : Width) where
  /-- the sign as a multiplier, +1 or -1, never a bit -/
  sign : Int
  /-- unbiased exponent -/
  exponent : Int
  /-- denormalised significand -/
  significand : Pattern w
  /-- class -/
  cls : FpClass
  deriving DecidableEq, Repr

/-- What RECOMP_W returns (41_codec.md R129). -/
structure Recomposed (w : Width) where
  /-- packed pattern -/
  u : Pattern w
  /-- invalid-input flag -/
  err : Bool
  /-- self-consistency diagnostic -/
  diag : Bool
  /-- fields and class re-derived from `u` -/
  rederived : Decomposed w
  deriving DecidableEq, Repr

/-- `CLASS_W` (41_codec.md R123). -/
def classOf (w : Width) (exponent : Int) (rawSig : Pattern w) : FpClass :=
  if exponent = (constants w).expMaxReserved then
    if rawSig ≠ 0 then .nan else .inf
  else if exponent = (constants w).expMin then
    if rawSig = 0 then .zero else .subnormal
  else .normal

/-- The denormalised significand (41_codec.md R122, step 6): doubled at `EXP_MIN`, else with the implicit bit. -/
def denormalised (w : Width) (exponent : Int) (rawSig : Pattern w) : Pattern w :=
  if exponent = (constants w).expMin then rawSig <<< 1 else rawSig ||| implicitBit w

/-- `DECOMP_W` (41_codec.md R122). -/
def decomp (w : Width) (u : Pattern w) : Decomposed w :=
  let exponent : Int := (rawExponent w u : Int) - (constants w).expBias
  let rawSig := rawSignificand w u
  { sign := if signBitSet w u then -1 else 1
    exponent := exponent
    significand := denormalised w exponent rawSig
    cls := classOf w exponent rawSig }

/-- `raw_exp` of recompose (41_codec.md R130): an exponent out of range, on either side, gives the reserved value. -/
def packedExponent (w : Width) (exponent : Int) : Nat :=
  if errExponent w exponent then (constants w).rawExpReserved else (exponent + (constants w).expBias).toNat

/-- The packed pattern of recompose (41_codec.md R129 steps 1 to 5, R131, R132). -/
def packed (w : Width) (sign exponent : Int) (significand : Pattern w) : Pattern w :=
  let rawSign : Pattern w := if sign < 0 then 1 else 0
  (rawSign <<< (w.bits - 1))
    ||| (BitVec.ofNat w.bits (packedExponent w exponent) <<< (constants w).significandBits)
    ||| (preSignificand w exponent significand &&& significandMask w)

/-- `RECOMP_W` (41_codec.md R129). -/
def recomp (w : Width) (p : Params) (sign exponent : Int) (significand : Pattern w) : Recomposed w :=
  let u := packed w sign exponent significand
  let err := errFlag w p exponent significand
  let d := decomp w u
  { u := u
    err := err
    diag := diagFlag p err (decide (d.sign ≠ sign ∨ d.exponent ≠ exponent ∨ d.significand ≠ significand))
    rederived := d }

/-- What `dec` drives (10_state.md R38, 41_codec.md R125, R126). -/
def fieldPorts {w : Width} (d : Decomposed w) : OutPorts :=
  { idlePorts with
    oSign := signPort d.sign
    oExp := exponentPort d.exponent
    oSig := zext64 d.significand
    oClass := classCode d.cls }

/-- What `cls` drives (10_state.md R38, 41_codec.md R127, R128). -/
def classPorts {w : Width} (d : Decomposed w) : OutPorts :=
  { idlePorts with oClass := classCode d.cls }

/-- What `rec` drives (10_state.md R38, 41_codec.md R135, R136). -/
def recomposedPorts {w : Width} (x : Recomposed w) : OutPorts :=
  { fieldPorts x.rederived with
    r := zext64 x.u
    oErr := flagPort x.err
    oDiag := flagPort x.diag }

/-- RECOMP_W on the operands a command presents (30_encoding.md R75). -/
def recompOperands (w : Width) (s : State) : Recomposed w :=
  recomp w s.params (operandSign s.inp) (operandExponent s.inp) (operandSignificand w s.inp)

/-- 41_codec.md R125. -/
def execDec32 (s : State) : Host.Outcome State Fault Refusal :=
  .next (drive (fieldPorts (decomp .w32 (operandA .w32 s.inp))) s)

/-- 41_codec.md R126. -/
def execDec64 (s : State) : Host.Outcome State Fault Refusal :=
  .next (drive (fieldPorts (decomp .w64 (operandA .w64 s.inp))) s)

/-- 41_codec.md R135. -/
def execRec32 (s : State) : Host.Outcome State Fault Refusal :=
  .next (drive (recomposedPorts (recompOperands .w32 s)) s)

/-- 41_codec.md R136. -/
def execRec64 (s : State) : Host.Outcome State Fault Refusal :=
  .next (drive (recomposedPorts (recompOperands .w64 s)) s)

/-- 41_codec.md R127. -/
def execCls32 (s : State) : Host.Outcome State Fault Refusal :=
  .next (drive (classPorts (decomp .w32 (operandA .w32 s.inp))) s)

/-- 41_codec.md R128. -/
def execCls64 (s : State) : Host.Outcome State Fault Refusal :=
  .next (drive (classPorts (decomp .w64 (operandA .w64 s.inp))) s)

end Sys2Proof.Machine
end

