-- ==== Sys2Proof/Machine/Distance.lean ====
section
/-! DEFINITION. The distance unit of 42_distance.md: DIST_W and the operations dst. (DIST_W is `ulpDistance`: the bare name `dist` is taken by the library.) -/

namespace Sys2Proof.Machine

/-- `DIST_W` (42_distance.md R160). The subtraction and the addition are on integers; the result is narrowed to W bits at
the end and always fits (R167). -/
def ulpDistance (w : Width) (x y : Pattern w) : Pattern w :=
  let cx := (decomp w x).cls
  let cy := (decomp w y).cls
  if cx = .nan ∨ cy = .nan then uintMax w
  else if cx = .inf ∨ cy = .inf then
    if cx = .inf ∧ cy = .inf ∧ signBitSet w x = signBitSet w y then 0 else uintMax w
  else if x = y ∨ magnitude w (x ||| y) = 0 then 0
  else
    let xu := (magnitude w x).toNat
    let yu := (magnitude w y).toNat
    if signBitSet w x = signBitSet w y then
      if xu ≥ yu then BitVec.ofNat w.bits (xu - yu) else BitVec.ofNat w.bits (yu - xu)
    else BitVec.ofNat w.bits (xu + yu)

/-- 42_distance.md R168. -/
def execDst32 (s : State) : Host.Outcome State Fault Refusal :=
  .next (driveResult (zext64 (ulpDistance .w32 (operandA .w32 s.inp) (operandB .w32 s.inp))) s)

/-- 42_distance.md R169. -/
def execDst64 (s : State) : Host.Outcome State Fault Refusal :=
  .next (driveResult (zext64 (ulpDistance .w64 (operandA .w64 s.inp) (operandB .w64 s.inp))) s)

end Sys2Proof.Machine
end

