-- ==== Sys2Proof/Machine/Reinterpret.lean ====
section
/-! DEFINITION. The bit reinterpretation operations of 40_reinterpret.md: the bits pass unchanged (R100), and the
operations differ in how `r[63:32]` is filled and in whether the build has them. -/

namespace Sys2Proof.Machine

/-- 40_reinterpret.md R101. -/
def execF2b32 (s : State) : Host.Outcome State Fault Refusal :=
  .next (driveResult (zext64 (operandA .w32 s.inp)) s)

/-- 40_reinterpret.md R102. -/
def execF2b64 (s : State) : Host.Outcome State Fault Refusal :=
  .next (driveResult (zext64 (operandA .w64 s.inp)) s)

/-- 40_reinterpret.md R103. -/
def execB2f32 (s : State) : Host.Outcome State Fault Refusal :=
  .next (driveResult (zext64 (operandA .w32 s.inp)) s)

/-- 40_reinterpret.md R104. -/
def execB2f64 (s : State) : Host.Outcome State Fault Refusal :=
  .next (driveResult (zext64 (operandA .w64 s.inp)) s)

/-- 40_reinterpret.md R105: the signed view, so `r` is sign-extended. -/
def execF2i32 (s : State) : Host.Outcome State Fault Refusal :=
  .next (driveSignedView (sext64 (operandA .w32 s.inp)) s)

/-- 40_reinterpret.md R106. -/
def execF2i64 (s : State) : Host.Outcome State Fault Refusal :=
  .next (driveSignedView (sext64 (operandA .w64 s.inp)) s)

/-- 40_reinterpret.md R107: the result is a float pattern, so `r` is zero-extended. -/
def execI2f32 (s : State) : Host.Outcome State Fault Refusal :=
  .next (driveSignedView (zext64 (operandA .w32 s.inp)) s)

/-- 40_reinterpret.md R108. -/
def execI2f64 (s : State) : Host.Outcome State Fault Refusal :=
  .next (driveSignedView (zext64 (operandA .w64 s.inp)) s)

end Sys2Proof.Machine
end

