-- ==== Sys2Proof/Machine/Dispatch.lean ====
section
/-! DEFINITION. One arm per operation of 30_encoding.md R72: each calls its meaning. -/

namespace Sys2Proof.Machine

def exec (i : Instr) (s : State) : Host.Outcome State Fault Refusal :=
  match i with
  | .f2b32 => Sys2Proof.Machine.execF2b32 s
  | .f2b64 => Sys2Proof.Machine.execF2b64 s
  | .b2f32 => Sys2Proof.Machine.execB2f32 s
  | .b2f64 => Sys2Proof.Machine.execB2f64 s
  | .f2i32 => Sys2Proof.Machine.execF2i32 s
  | .f2i64 => Sys2Proof.Machine.execF2i64 s
  | .i2f32 => Sys2Proof.Machine.execI2f32 s
  | .i2f64 => Sys2Proof.Machine.execI2f64 s
  | .dec32 => Sys2Proof.Machine.execDec32 s
  | .dec64 => Sys2Proof.Machine.execDec64 s
  | .rec32 => Sys2Proof.Machine.execRec32 s
  | .rec64 => Sys2Proof.Machine.execRec64 s
  | .dst32 => Sys2Proof.Machine.execDst32 s
  | .dst64 => Sys2Proof.Machine.execDst64 s
  | .cls32 => Sys2Proof.Machine.execCls32 s
  | .cls64 => Sys2Proof.Machine.execCls64 s

end Sys2Proof.Machine
end

