-- ==== Sys2Proof/Machine/Command.lean ====
section
/-! DEFINITION. One command from its ports to its outputs, what it gives as a function, and the host's actions that a
step carries out. -/

namespace Sys2Proof.Machine

/-- Run the command on the input ports (30_encoding.md R73): its operation, or `illegal()` where the select names none. -/
def runCommand (s : State) : Host.Outcome State Fault Refusal :=
  match decode s.params s.inp.op with
  | .ok i => exec i s
  | .error _ => .next (illegal s)

/-- The output tuple of a command, as a function of the command alone in a build with parameters `p` (00_scope.md R4). -/
def evaluate (p : Params) (c : InPorts) : Option OutPorts :=
  match runCommand (capture c (State.elaborated p)) with
  | .next t => t.out
  | .fault _ => none
  | .refused _ => none

/-- What the host sees on the output ports (70_reset_and_hazards.md R211). Where no command's results are valid, a
combinational block (`P_LATENCY = 0`) shows the function of the ports as they stand, and any other shows nothing that may
be read. -/
def visibleOutputs (s : State) : Option OutPorts :=
  match s.out with
  | some o => some o
  | none => if Config.pLatency = 0 then evaluate s.params s.inp else none

/-- The host reads the output ports: a fault of the host where they are unspecified (92_eei_decisions.md D16). -/
def sampleOutputs (s : State) : Host.Outcome State Fault Refusal :=
  match visibleOutputs s with
  | some o => .next (collect o s)
  | none => .fault .outputsNotValid

/-- One action of the host, carried out. -/
def runAction (act : HostAction) (s : State) : Host.Outcome State Fault Refusal :=
  match act with
  | .present c => runCommand (capture c s)
  | .sample => sampleOutputs s
  | .assertReset => .next (resetOutputs s)

/-- The host's schedule, changed so that its very next action presents operation select `op`. A command already next in
the schedule keeps its operands; where none is, one is put in front with the operands the ports hold. -/
def scheduleSelect (op : BitVec 5) (s : State) : State :=
  match s.schedule with
  | .present c :: rest => { s with schedule := .present { c with op := op } :: rest }
  | rest => { s with schedule := .present { s.inp with op := op } :: rest }

end Sys2Proof.Machine
end

