-- ==== Sys2Proof/Machine/Step.lean ====
section
/-! DEFINITION. One step: the host's next action (log entry 2). A step that presents a command is that command, whole
(20_memory.md R57). With nothing scheduled nothing happens. -/

namespace Sys2Proof.Machine

/-- One step of the machine. -/
def step (s : State) : Host.Outcome State Fault Refusal :=
  match s.schedule with
  | [] => .next s
  | act :: rest => runAction act { s with schedule := rest }

/-- `s` with the instruction of an opcode-table word as the command its very next step presents (log entries 6, 7). -/
def State.withFetchWord (s : State) (nbits w : Nat) : State :=
  scheduleSelect (tableWordSelect nbits w) s

end Sys2Proof.Machine
end

