-- ==== Sys2Proof/Safety.lean ====
section
/-! DEFINITION. What claims are stated in: the rules an output tuple obeys, outputs that belong to the command on the ports, the
ports an operation reads, and finite patterns. -/

namespace Sys2Proof.Machine

/-- Four rules the output tuple of every command obeys: a class code of 41_codec.md R121, a sign of 10_state.md R40 or
idle, never both `o_err` and `o_diag` (60_exceptions.md R186), and nothing beside `o_illegal` (R184). They are necessary
and not sufficient: a tuple may obey them and be the output of no command. -/
def LegalOutputs (o : OutPorts) : Prop :=
  o.oClass.toNat ≤ 4 ∧ (o.oSign = 0x00#8 ∨ o.oSign = 0x01#8 ∨ o.oSign = 0xFF#8) ∧
    (o.oErr = 1 → o.oDiag = 0) ∧ (o.oIllegal = 1 → o = illegalPorts)

/-- Every output tuple on the ports or among the host's values obeys the rules of `LegalOutputs`. -/
def OnlyLegalOutputs (s : State) : Prop :=
  (∀ o, s.out = some o → LegalOutputs o) ∧ ∀ o ∈ s.collected, LegalOutputs o

/-- The outputs, where valid, are those of the command on the input ports, which are those of the command presented last
(00_scope.md R4, log entries 3 and 14). -/
def OutputsBelongToPorts (s : State) : Prop :=
  s.out = none ∨ s.out = evaluate s.params s.inp

/-- Two commands agree on every operand bit that the operation reads (10_state.md R36, 30_encoding.md R75). -/
def AgreeOnOperands (i : Instr) (c d : InPorts) : Prop :=
  match i with
  | .f2b32 | .b2f32 | .f2i32 | .i2f32 | .dec32 | .cls32 => c.a.setWidth 32 = d.a.setWidth 32
  | .f2b64 | .b2f64 | .f2i64 | .i2f64 | .dec64 | .cls64 => c.a = d.a
  | .dst32 => c.a.setWidth 32 = d.a.setWidth 32 ∧ c.b.setWidth 32 = d.b.setWidth 32
  | .dst64 => c.a = d.a ∧ c.b = d.b
  | .rec32 => c.fSign = d.fSign ∧ c.fExp = d.fExp ∧ c.fSig.setWidth 32 = d.fSig.setWidth 32
  | .rec64 => c.fSign = d.fSign ∧ c.fExp = d.fExp ∧ c.fSig = d.fSig

/-- A pattern that is neither a NaN nor an infinity. -/
def FinitePattern (w : Width) (u : Pattern w) : Prop :=
  (decomp w u).cls ≠ .nan ∧ (decomp w u).cls ≠ .inf

/-- Canonical fields (00_scope.md R19): those `decompose` can produce. -/
def CanonicalFields (w : Width) (sign exponent : Int) (significand : Pattern w) : Prop :=
  (sign = 1 ∨ sign = -1) ∧
    (constants w).expMin ≤ exponent ∧ exponent ≤ (constants w).expMaxReserved ∧
    significand.toNat < 2 ^ ((constants w).significandBits + 1) ∧
    (exponent ≠ (constants w).expMin → significand.getLsbD (constants w).significandBits = true) ∧
    (exponent = (constants w).expMin → significand.toNat % 2 = 0)

end Sys2Proof.Machine
end

