-- ==== Sys2Proof/Certificates/Slice0/Obligations.lean ====
section
/-! DEFINITION. The statements for the provers. Every statement about an operation gives the whole next state, so it is
also the operation's frame: parameters, input ports, schedule and collected values are unchanged, and only the output
ports are driven. -/

open Sys2Proof Sys2Proof.Machine

/-! ## Encoding -/

/-- One operation select of each function, as 30_encoding.md R72 writes it (FUNC, then WSEL), and the first and last
reserved ones. -/
def Obligations.WordsDecodeToTheirOperations : Prop :=
  decode Params.specDefault 0b00000#5 = .ok .f2b32 ∧ decode Params.specDefault 0b00011#5 = .ok .b2f64 ∧
  decode Params.specDefault 0b00100#5 = .ok .f2i32 ∧ decode Params.specDefault 0b00111#5 = .ok .i2f64 ∧
  decode Params.specDefault 0b01001#5 = .ok .dec64 ∧ decode Params.specDefault 0b01010#5 = .ok .rec32 ∧
  decode Params.specDefault 0b01101#5 = .ok .dst64 ∧ decode Params.specDefault 0b01110#5 = .ok .cls32 ∧
  decode Params.specDefault 0b10000#5 = .error .reservedFunction ∧
  decode Params.specDefault 0b11111#5 = .error .reservedFunction

/-- 30_encoding.md R73: for every build and every operation select, exactly which of the three ends decoding has. -/
def Obligations.DecoderIsTotalAndExact : Prop :=
  ∀ (p : Params) (op : BitVec 5),
    (∀ i, decode p op = .ok i ↔ encode i = op ∧ i.wf p = true) ∧
    (decode p op = .error .reservedFunction ↔ 0x10 ≤ op.toNat) ∧
    (decode p op = .error .signedViewAbsent ↔ 4 ≤ op.toNat ∧ op.toNat ≤ 7 ∧ p.hasSignedView = false)

/-- Decoding the encoding of a present operation gives it back, and no two operations share a select. -/
def Obligations.DecodeOfEncode : Prop :=
  ∀ (p : Params) (i : Instr), i.wf p = true →
    decode p (encode i) = .ok i ∧ ∀ j : Instr, encode j = encode i → j = i

/-! ## The step -/

/-- A step whose next host action presents a command that decodes is `exec` of its operation, on the ports captured
together, with the action taken off the schedule. -/
def Obligations.StepRunsPresentedCommand : Prop :=
  ∀ (s : State) (c : InPorts) (rest : List HostAction) (i : Instr),
    s.schedule = .present c :: rest → decode s.params c.op = .ok i → i.wf s.params = true →
    step s = exec i { s with inp := c, schedule := rest }

/-- 60_exceptions.md R184: a select that names no operation drives `o_illegal` and zeroes, has no other effect, and leaves
the next command as it would have been without it. -/
def Obligations.IllegalSelectDrivesIllegalOnly : Prop :=
  ∀ (s : State) (c : InPorts) (rest : List HostAction) (e : DecodeError),
    s.schedule = .present c :: rest → decode s.params c.op = .error e →
    ∃ t, step s = .next t ∧
      t = { s with inp := c, schedule := rest, out := some { r := 0, oSign := 0, oExp := 0, oSig := 0, oClass := 0, oErr := 0, oDiag := 0, oIllegal := 1 } } ∧
      ∀ (d : InPorts) (rest' : List HostAction), rest = .present d :: rest' → step t = step { s with schedule := rest }

/-- 00_scope.md R4: a presented command always completes, and its outputs are the function `evaluate` of that command
alone: no earlier output, host value or later action plays a part. -/
def Obligations.ResultsAreFunctionOfCommand : Prop :=
  ∀ (s : State) (c : InPorts) (rest : List HostAction), s.schedule = .present c :: rest →
    ∃ o, evaluate s.params c = some o ∧ step s = .next { s with inp := c, schedule := rest, out := some o }

/-- The model's three other steps (log entries 2, 4, 9): nothing scheduled, an asserted reset, and a read of the outputs,
which is a fault exactly where they are unspecified (70_reset_and_hazards.md R211, 92_eei_decisions.md D16). Holds
whatever `P_LATENCY` is. -/
def Obligations.StepsOfOtherHostActions : Prop :=
  ∀ (s : State) (rest : List HostAction),
    (s.schedule = [] → step s = .next s) ∧
    (s.schedule = .assertReset :: rest → step s = .next { s with schedule := rest, out := none }) ∧
    (∀ o, s.schedule = .sample :: rest → s.out = some o →
      step s = .next { s with schedule := rest, collected := s.collected ++ [o] }) ∧
    (s.schedule = .sample :: rest → s.out = none →
      ∃ o, evaluate s.params s.inp = some o ∧
        step s = if Config.pLatency = 0 then .next { s with schedule := rest, collected := s.collected ++ [o] }
          else .fault .outputsNotValid)

/-- Reset: the spec's default build, with no result that could be read where the block has latency
(70_reset_and_hazards.md R211). That schedule and collected values are empty is the model's choice (log entry 2). -/
def Obligations.ResetLeavesNoResult : Prop :=
  State.reset.params.hasSignedView = true ∧ State.reset.params.hasDiag = true ∧
  State.reset.params.flagImplicitBit = false ∧ State.reset.out = none ∧ State.reset.schedule = [] ∧
  State.reset.collected = [] ∧ (visibleOutputs State.reset = none ↔ Config.pLatency ≠ 0)

/-! ## Bit reinterpretation -/

/-- 40_reinterpret.md R101, R102: encodings, result and idle outputs of float_to_bits. -/
def Obligations.FloatToBitsResult : Prop :=
  (∀ p, decode p 0x00#5 = .ok .f2b32 ∧ decode p 0x01#5 = .ok .f2b64) ∧
  ∀ s : State,
    exec .f2b32 s = .next { s with out := some { r := (s.inp.a.setWidth 32).setWidth 64, oSign := 0, oExp := 0, oSig := 0, oClass := 0, oErr := 0, oDiag := 0, oIllegal := 0 } } ∧
    exec .f2b64 s = .next { s with out := some { r := s.inp.a, oSign := 0, oExp := 0, oSig := 0, oClass := 0, oErr := 0, oDiag := 0, oIllegal := 0 } }

/-- 40_reinterpret.md R103, R104: encodings, result and idle outputs of bits_to_float. -/
def Obligations.BitsToFloatResult : Prop :=
  (∀ p, decode p 0x02#5 = .ok .b2f32 ∧ decode p 0x03#5 = .ok .b2f64) ∧
  ∀ s : State,
    exec .b2f32 s = .next { s with out := some { r := (s.inp.a.setWidth 32).setWidth 64, oSign := 0, oExp := 0, oSig := 0, oClass := 0, oErr := 0, oDiag := 0, oIllegal := 0 } } ∧
    exec .b2f64 s = .next { s with out := some { r := s.inp.a, oSign := 0, oExp := 0, oSig := 0, oClass := 0, oErr := 0, oDiag := 0, oIllegal := 0 } }

/-- 40_reinterpret.md R105, R106: the signed view of a pattern, sign-extended at W = 32; illegal in a build without it. -/
def Obligations.SignedFloatToIntBitsResult : Prop :=
  (∀ p : Params, p.hasSignedView = true → decode p 0x04#5 = .ok .f2i32 ∧ decode p 0x05#5 = .ok .f2i64) ∧
  (∀ p : Params, p.hasSignedView = false →
    decode p 0x04#5 = .error .signedViewAbsent ∧ decode p 0x05#5 = .error .signedViewAbsent) ∧
  ∀ s : State, s.params.hasSignedView = true →
    exec .f2i32 s = .next { s with out := some { r := (s.inp.a.setWidth 32).signExtend 64, oSign := 0, oExp := 0, oSig := 0, oClass := 0, oErr := 0, oDiag := 0, oIllegal := 0 } } ∧
    exec .f2i64 s = .next { s with out := some { r := s.inp.a, oSign := 0, oExp := 0, oSig := 0, oClass := 0, oErr := 0, oDiag := 0, oIllegal := 0 } }

/-- 40_reinterpret.md R107, R108: the pattern of a signed integer, zero-extended at W = 32; illegal in a build without the
signed view. -/
def Obligations.SignedIntBitsToFloatResult : Prop :=
  (∀ p : Params, p.hasSignedView = true → decode p 0x06#5 = .ok .i2f32 ∧ decode p 0x07#5 = .ok .i2f64) ∧
  (∀ p : Params, p.hasSignedView = false →
    decode p 0x06#5 = .error .signedViewAbsent ∧ decode p 0x07#5 = .error .signedViewAbsent) ∧
  ∀ s : State, s.params.hasSignedView = true →
    exec .i2f32 s = .next { s with out := some { r := (s.inp.a.setWidth 32).setWidth 64, oSign := 0, oExp := 0, oSig := 0, oClass := 0, oErr := 0, oDiag := 0, oIllegal := 0 } } ∧
    exec .i2f64 s = .next { s with out := some { r := s.inp.a, oSign := 0, oExp := 0, oSig := 0, oClass := 0, oErr := 0, oDiag := 0, oIllegal := 0 } }

/-- The model's choice (log entry 8): run by itself in a build without the signed view, an operation of the view drives
what an illegal select drives. -/
def Obligations.SignedViewAbsentIsIllegal : Prop :=
  ∀ (s : State) (i : Instr), i.isSignedView = true → s.params.hasSignedView = false →
    exec i s = .next { s with out := some { r := 0, oSign := 0, oExp := 0, oSig := 0, oClass := 0, oErr := 0, oDiag := 0, oIllegal := 1 } }

/-- 40_reinterpret.md R109: at each width, three pairs of operations are inverse to each other on the W-bit pattern. Each
second operation runs on a state whose port `a` carries the first one's `r`. -/
def Obligations.ReinterpretInverseLaws : Prop :=
  let returnsPattern (w : Width) (i j : Instr) : Prop :=
    ∀ s : State, s.params.hasSignedView = true →
      ∃ o, exec i s = .next { s with out := some o } ∧
        ∀ t : State, t.params.hasSignedView = true → t.inp.a = o.r →
          ∃ o', exec j t = .next { t with out := some o' } ∧ o'.r.setWidth w.bits = s.inp.a.setWidth w.bits
  returnsPattern .w32 .f2b32 .b2f32 ∧ returnsPattern .w32 .b2f32 .f2b32 ∧ returnsPattern .w32 .f2i32 .i2f32 ∧
  returnsPattern .w64 .f2b64 .b2f64 ∧ returnsPattern .w64 .b2f64 .f2b64 ∧ returnsPattern .w64 .f2i64 .i2f64

/-! ## Decompose and classify -/

/-- 41_codec.md R122, R123: DECOMP_W and CLASS_W on the pattern as a number, the fields being its quotients and
remainders. -/
def Obligations.DecompFieldsFromBits : Prop :=
  ∀ (w : Width) (u : Pattern w),
    let k := constants w
    let rawExp := u.toNat / 2 ^ k.significandBits % 2 ^ k.expBits
    let rawSig := u.toNat % 2 ^ k.significandBits
    (decomp w u).sign = (if u.getLsbD (w.bits - 1) = true then -1 else 1) ∧
    (decomp w u).exponent = (rawExp : Int) - k.expBias ∧
    (decomp w u).significand.toNat = (if rawExp = 0 then 2 * rawSig else rawSig + 2 ^ k.significandBits) ∧
    (decomp w u).cls =
      (if rawExp = k.rawExpReserved then (if rawSig ≠ 0 then .nan else .inf)
       else if rawExp = 0 then (if rawSig = 0 then .zero else .subnormal)
       else .normal)

/-- 41_codec.md R124: the ranges of DECOMP_W class by class, the sign, and that it is injective. -/
def Obligations.DecompRangesAndInjectivity : Prop :=
  ∀ (w : Width) (u : Pattern w),
    let k := constants w
    let d := decomp w u
    let rawExp := u.toNat / 2 ^ k.significandBits % 2 ^ k.expBits
    (d.cls = .zero → rawExp = 0 ∧ d.exponent = k.expMin ∧ d.significand.toNat = 0) ∧
    (d.cls = .subnormal → rawExp = 0 ∧ d.exponent = k.expMin ∧ d.significand.toNat % 2 = 0 ∧
      2 ≤ d.significand.toNat ∧ d.significand.toNat ≤ 2 ^ (k.significandBits + 1) - 2) ∧
    (d.cls = .normal → 1 ≤ rawExp ∧ rawExp ≤ k.rawExpMaxValid ∧ k.expNormalMin ≤ d.exponent ∧ d.exponent ≤ k.expMax ∧
      k.implicitBit ≤ d.significand.toNat ∧ d.significand.toNat ≤ 2 ^ (k.significandBits + 1) - 1) ∧
    (d.cls = .inf → rawExp = k.rawExpReserved ∧ d.exponent = k.expMaxReserved ∧ d.significand.toNat = k.implicitBit) ∧
    (d.cls = .nan → rawExp = k.rawExpReserved ∧ d.exponent = k.expMaxReserved ∧
      k.implicitBit + 1 ≤ d.significand.toNat ∧ d.significand.toNat ≤ 2 ^ (k.significandBits + 1) - 1) ∧
    (d.sign = -1 ↔ u.getLsbD (w.bits - 1) = true) ∧ (d.sign = 1 ∨ d.sign = -1) ∧
    ∀ v : Pattern w, (decomp w v).sign = d.sign → (decomp w v).exponent = d.exponent →
      (decomp w v).significand = d.significand → v = u

/-- 10_state.md R40: the field outputs read back as the fields. -/
def Obligations.FieldPortsCarryFields : Prop :=
  ∀ (w : Width) (u : Pattern w),
    let k := constants w
    let d := decomp w u
    let o := fieldPorts d
    (d.sign = 1 → o.oSign = 0x01#8) ∧ (d.sign = -1 → o.oSign = 0xFF#8) ∧ o.oSign ≠ 0x00#8 ∧ o.oSign.toInt = d.sign ∧
    o.oExp.toInt = d.exponent ∧ k.expMin ≤ d.exponent ∧ d.exponent ≤ k.expMaxReserved ∧
    o.oSig.toNat = d.significand.toNat ∧ d.significand.toNat < 2 ^ (k.significandBits + 1)

/-- 41_codec.md R125, R126: encodings and outputs of decompose. -/
def Obligations.DecomposeResult : Prop :=
  (∀ p, decode p 0x08#5 = .ok .dec32 ∧ decode p 0x09#5 = .ok .dec64) ∧
  ∀ s : State,
    (let d := decomp .w32 (s.inp.a.setWidth 32)
     exec .dec32 s = .next { s with out := some { r := 0, oSign := if d.sign < 0 then 0xFF#8 else 0x01#8, oExp := BitVec.ofInt 16 d.exponent, oSig := d.significand.setWidth 64, oClass := classCode d.cls, oErr := 0, oDiag := 0, oIllegal := 0 } }) ∧
    (let d := decomp .w64 s.inp.a
     exec .dec64 s = .next { s with out := some { r := 0, oSign := if d.sign < 0 then 0xFF#8 else 0x01#8, oExp := BitVec.ofInt 16 d.exponent, oSig := d.significand, oClass := classCode d.cls, oErr := 0, oDiag := 0, oIllegal := 0 } })

/-- 41_codec.md R127, R128: encodings and outputs of classify, whose class is that of decompose on the same ports. -/
def Obligations.ClassifyResult : Prop :=
  (∀ p, decode p 0x0E#5 = .ok .cls32 ∧ decode p 0x0F#5 = .ok .cls64) ∧
  ∀ s : State,
    exec .cls32 s = .next { s with out := some { r := 0, oSign := 0, oExp := 0, oSig := 0, oClass := classCode (decomp .w32 (s.inp.a.setWidth 32)).cls, oErr := 0, oDiag := 0, oIllegal := 0 } } ∧
    exec .cls64 s = .next { s with out := some { r := 0, oSign := 0, oExp := 0, oSig := 0, oClass := classCode (decomp .w64 s.inp.a).cls, oErr := 0, oDiag := 0, oIllegal := 0 } } ∧
    (∃ o o', exec .cls32 s = .next { s with out := some o } ∧ exec .dec32 s = .next { s with out := some o' } ∧
      o.oClass = o'.oClass) ∧
    (∃ o o', exec .cls64 s = .next { s with out := some o } ∧ exec .dec64 s = .next { s with out := some o' } ∧
      o.oClass = o'.oClass)

/-- 41_codec.md R121: the numbering of the classes, and that codes 5, 6 and 7 are never produced by any command. -/
def Obligations.ClassCodesAreFive : Prop :=
  classCode .nan = 0 ∧ classCode .inf = 1 ∧ classCode .zero = 2 ∧ classCode .subnormal = 3 ∧ classCode .normal = 4 ∧
  ∀ (p : Params) (c : InPorts) (o : OutPorts), evaluate p c = some o → o.oClass ≠ 5 ∧ o.oClass ≠ 6 ∧ o.oClass ≠ 7

/-! ## Recompose -/

/-- 41_codec.md R135, R136: encodings, operands and outputs of recompose, by RECOMP_W. -/
def Obligations.RecomposeResult : Prop :=
  (∀ p, decode p 0x0A#5 = .ok .rec32 ∧ decode p 0x0B#5 = .ok .rec64) ∧
  ∀ s : State,
    (let x := recomp .w32 s.params s.inp.fSign.toInt s.inp.fExp.toInt (s.inp.fSig.setWidth 32)
     exec .rec32 s = .next { s with out := some { r := x.u.setWidth 64, oSign := if x.rederived.sign < 0 then 0xFF#8 else 0x01#8, oExp := BitVec.ofInt 16 x.rederived.exponent, oSig := x.rederived.significand.setWidth 64, oClass := classCode x.rederived.cls, oErr := BitVec.ofBool x.err, oDiag := BitVec.ofBool x.diag, oIllegal := 0 } }) ∧
    (let x := recomp .w64 s.params s.inp.fSign.toInt s.inp.fExp.toInt s.inp.fSig
     exec .rec64 s = .next { s with out := some { r := x.u, oSign := if x.rederived.sign < 0 then 0xFF#8 else 0x01#8, oExp := BitVec.ofInt 16 x.rederived.exponent, oSig := x.rederived.significand, oClass := classCode x.rederived.cls, oErr := BitVec.ofBool x.err, oDiag := BitVec.ofBool x.diag, oIllegal := 0 } })

/-- 41_codec.md R130: an exponent out of range, on either side, is flagged and packs the reserved exponent, so an infinity
or a NaN and never a zero; any other packs itself plus the bias. -/
def Obligations.ExponentValidationSaturates : Prop :=
  ∀ (w : Width) (p : Params) (sign exponent : Int) (significand : Pattern w),
    let k := constants w
    let x := recomp w p sign exponent significand
    let field := x.u.toNat / 2 ^ k.significandBits % 2 ^ k.expBits
    (exponent < k.expMin ∨ k.expMaxReserved < exponent →
      errExponent w exponent = true ∧ x.err = true ∧ field = k.rawExpReserved ∧
        (x.rederived.cls = .inf ∨ x.rederived.cls = .nan)) ∧
    (k.expMin ≤ exponent ∧ exponent ≤ k.expMaxReserved →
      errExponent w exponent = false ∧ (field : Int) = exponent + k.expBias)

/-- 41_codec.md R129, R131: which significands are flagged, in both readings of the implicit bit, what is packed of any
significand, and that both readings pack the same pattern. R131's remark on the bit dropped at `EXP_MIN` is read as the
pseudocode has it (log entry 13). -/
def Obligations.SignificandValidationMasks : Prop :=
  ∀ (w : Width) (p q : Params) (sign exponent : Int) (significand : Pattern w),
    let k := constants w
    let x := recomp w p sign exponent significand
    let tooWide :=
      if exponent = k.expMin ∨ p.flagImplicitBit = false then 2 ^ (k.significandBits + 1) ≤ significand.toNat
      else 2 ^ k.significandBits ≤ significand.toNat
    (errSignificand w p exponent significand = true ↔ tooWide) ∧
    (x.err = true ↔ errExponent w exponent = true ∨ tooWide) ∧
    x.u.toNat % 2 ^ k.significandBits =
      (if exponent = k.expMin then significand.toNat / 2 else significand.toNat) % 2 ^ k.significandBits ∧
    (recomp w q sign exponent significand).u = x.u

/-- 41_codec.md R132: the packed pattern as the sum of its three fields, the sign bit, that no sign is an input error, and
that a sign other than 1 and -1 raises the diagnostic. -/
def Obligations.SignAndPacking : Prop :=
  ∀ (w : Width) (p : Params) (sign sign' exponent : Int) (significand : Pattern w),
    let k := constants w
    let x := recomp w p sign exponent significand
    x.u.toNat =
      (if sign < 0 then 2 ^ (w.bits - 1) else 0)
        + (if exponent < k.expMin ∨ k.expMaxReserved < exponent then k.rawExpReserved
            else (exponent + k.expBias).toNat) * 2 ^ k.significandBits
        + (if exponent = k.expMin then significand.toNat / 2 else significand.toNat) % 2 ^ k.significandBits ∧
    (x.u.getLsbD (w.bits - 1) = true ↔ sign < 0) ∧
    (recomp w p sign' exponent significand).err = x.err ∧
    (p.hasDiag = true → x.err = false → sign ≠ 1 → sign ≠ -1 → x.diag = true)

/-- 41_codec.md R133: the fields and class that recompose drives are those of the pattern it drives, after any
saturation. -/
def Obligations.RecomposeReportsItsOwnResult : Prop :=
  ∀ s : State,
    (∃ o, exec .rec32 s = .next { s with out := some o } ∧
      (let d := decomp .w32 (o.r.setWidth 32)
       o.oClass = classCode d.cls ∧ o.oSign.toInt = d.sign ∧ o.oExp.toInt = d.exponent ∧
         o.oSig.toNat = d.significand.toNat)) ∧
    (∃ o, exec .rec64 s = .next { s with out := some o } ∧
      (let d := decomp .w64 o.r
       o.oClass = classCode d.cls ∧ o.oSign.toInt = d.sign ∧ o.oExp.toInt = d.exponent ∧
         o.oSig.toNat = d.significand.toNat))

/-- 41_codec.md R134: the diagnostic is the mismatch, suppressed by an error and by a build without it; the exponent never
mismatches; with the default parameters it is exactly the three cases (a), (b) and (c); whether it is computed changes
nothing else; and `rec` completes whatever it is. -/
def Obligations.DiagnosticExactlyThreeCases : Prop :=
  ∀ (w : Width) (p : Params) (sign exponent : Int) (significand : Pattern w),
    let k := constants w
    let x := recomp w p sign exponent significand
    (x.diag = true ↔ p.hasDiag = true ∧ x.err = false ∧
      (x.rederived.sign ≠ sign ∨ x.rederived.exponent ≠ exponent ∨ x.rederived.significand ≠ significand)) ∧
    (x.err = false → x.rederived.exponent = exponent) ∧
    (p = Params.specDefault → x.err = false →
      (x.diag = true ↔
        (sign ≠ 1 ∧ sign ≠ -1) ∨
        (exponent = k.expMin ∧ significand.toNat % 2 = 1) ∨
        (exponent ≠ k.expMin ∧ significand.getLsbD k.significandBits = false))) ∧
    (∀ b : Bool, recomp w { p with hasDiag := b } sign exponent significand =
      { x with diag := (recomp w { p with hasDiag := b } sign exponent significand).diag }) ∧
    (∀ s : State, ∃ o o', exec .rec32 s = .next { s with out := some o } ∧ exec .rec64 s = .next { s with out := some o' } ∧
      (o.oDiag = 1 ↔ (recomp .w32 s.params s.inp.fSign.toInt s.inp.fExp.toInt (s.inp.fSig.setWidth 32)).diag = true) ∧
      (o'.oDiag = 1 ↔ (recomp .w64 s.params s.inp.fSign.toInt s.inp.fExp.toInt s.inp.fSig).diag = true))

/-- 00_scope.md R13, R14 and 60_exceptions.md R183: the pattern and everything re-derived from it are the same in every
build; the diagnostic parameter changes nothing but the diagnostic, which is 0 without it. -/
def Obligations.ParametersNeverChangeThePattern : Prop :=
  ∀ (w : Width) (p q : Params) (sign exponent : Int) (significand : Pattern w),
    let x := recomp w p sign exponent significand
    let y := recomp w q sign exponent significand
    x.u = y.u ∧ x.rederived = y.rederived ∧
    (p.flagImplicitBit = q.flagImplicitBit → x.err = y.err) ∧
    (p.hasDiag = false → x.diag = false) ∧
    (p.flagImplicitBit = false → x.err = true → y.err = true)

/-- 41_codec.md R137: both round-trip laws, with what the literal reading of the implicit bit changes. -/
def Obligations.CodecRoundTripLaws : Prop :=
  (∀ (w : Width) (p : Params) (u : Pattern w),
    let d := decomp w u
    let x := recomp w p d.sign d.exponent d.significand
    x.u = u ∧ x.rederived.cls = d.cls ∧
    (p.flagImplicitBit = false → x.err = false ∧ x.diag = false) ∧
    (p.flagImplicitBit = true → (x.err = true ↔ d.exponent ≠ (constants w).expMin))) ∧
  (∀ (w : Width) (p : Params) (sign exponent : Int) (significand : Pattern w),
    CanonicalFields w sign exponent significand →
    let d := decomp w (recomp w p sign exponent significand).u
    d.sign = sign ∧ d.exponent = exponent ∧ d.significand = significand)

/-- 41_codec.md R137 through the machine's ports: the field outputs of decompose, fed into recompose, give back the pattern,
its class and its fields with no flag, NaN signs and payloads included. -/
def Obligations.DecomposeThenRecomposeReturnsPattern : Prop :=
  ∀ s : State,
    (∃ o, exec .dec32 s = .next { s with out := some o } ∧
      ∀ t : State, t.params.flagImplicitBit = false →
        t.inp.fSign = o.oSign → t.inp.fExp = o.oExp → t.inp.fSig = o.oSig →
        exec .rec32 t = .next { t with out := some { o with r := (s.inp.a.setWidth 32).setWidth 64 } }) ∧
    (∃ o, exec .dec64 s = .next { s with out := some o } ∧
      ∀ t : State, t.params.flagImplicitBit = false →
        t.inp.fSign = o.oSign → t.inp.fExp = o.oExp → t.inp.fSig = o.oSig →
        exec .rec64 t = .next { t with out := some { o with r := s.inp.a } })

/-! ## Distance -/

/-- 42_distance.md R168, R169: encodings, operands and outputs of distance, by DIST_W. -/
def Obligations.DistanceResult : Prop :=
  (∀ p, decode p 0x0C#5 = .ok .dst32 ∧ decode p 0x0D#5 = .ok .dst64) ∧
  ∀ s : State,
    exec .dst32 s = .next { s with out := some { r := (ulpDistance .w32 (s.inp.a.setWidth 32) (s.inp.b.setWidth 32)).setWidth 64, oSign := 0, oExp := 0, oSig := 0, oClass := 0, oErr := 0, oDiag := 0, oIllegal := 0 } } ∧
    exec .dst64 s = .next { s with out := some { r := ulpDistance .w64 s.inp.a s.inp.b, oSign := 0, oExp := 0, oSig := 0, oClass := 0, oErr := 0, oDiag := 0, oIllegal := 0 } }

/-- 42_distance.md R161 and R162: the special cases. A NaN on either side gives all ones, whatever the other side, the
identical pattern included; without a NaN, an infinity gives 0 against the same infinity and all ones otherwise. No
operand of `dst` sets a flag. -/
def Obligations.DistanceOfNanAndInfinity : Prop :=
  ∀ (w : Width) (x y : Pattern w),
    let cx := (decomp w x).cls
    let cy := (decomp w y).cls
    (cx = .nan ∨ cy = .nan → ulpDistance w x y = BitVec.allOnes w.bits) ∧
    (cx ≠ .nan → cy ≠ .nan → cx = .inf ∨ cy = .inf →
      ulpDistance w x y =
        if cx = .inf ∧ cy = .inf ∧ x.getLsbD (w.bits - 1) = y.getLsbD (w.bits - 1) then 0 else BitVec.allOnes w.bits) ∧
    (∀ (i : Instr) (s : State), i = .dst32 ∨ i = .dst64 →
      ∃ o, exec i s = .next { s with out := some o } ∧ o.oErr = 0 ∧ o.oDiag = 0 ∧ o.oIllegal = 0)

/-- 42_distance.md R163 to R166: on finite operands the distance is one formula over the magnitude patterns, which lie
below the reserved exponent; equal operands and zeros of any sign are at distance 0 by that same formula. -/
def Obligations.DistanceOfFiniteOperands : Prop :=
  ∀ (w : Width) (x y : Pattern w), FinitePattern w x → FinitePattern w y →
    let xu := x.toNat % 2 ^ (w.bits - 1)
    let yu := y.toNat % 2 ^ (w.bits - 1)
    xu ≤ (constants w).expMask - 1 ∧ yu ≤ (constants w).expMask - 1 ∧
    (ulpDistance w x y).toNat =
      (if x.getLsbD (w.bits - 1) = y.getLsbD (w.bits - 1) then (if xu ≥ yu then xu - yu else yu - xu) else xu + yu) ∧
    ((decomp w x).sign = (decomp w y).sign ↔ x.getLsbD (w.bits - 1) = y.getLsbD (w.bits - 1)) ∧
    (x = y ∨ (xu = 0 ∧ yu = 0) → ulpDistance w x y = 0)

/-- 42_distance.md R167: no finite pair wraps or reaches UINT_MAX, so UINT_MAX means exactly a NaN, or an infinity paired
with anything but the same infinity. -/
def Obligations.DistanceNeverWraps : Prop :=
  ∀ (w : Width) (x y : Pattern w),
    (FinitePattern w x → FinitePattern w y → (ulpDistance w x y).toNat ≤ 2 * ((constants w).expMask - 1)) ∧
    2 * ((constants w).expMask - 1) < (constants w).uintMax ∧
    ((ulpDistance w x y).toNat = (constants w).uintMax ↔
      (decomp w x).cls = .nan ∨ (decomp w y).cls = .nan ∨
      (((decomp w x).cls = .inf ∨ (decomp w y).cls = .inf) ∧ x ≠ y))

/-- 42_distance.md R170: symmetry, identity, and monotonicity over magnitude patterns, also for two negative patterns and
across zero. -/
def Obligations.DistanceLaws : Prop :=
  ∀ w : Width,
    (∀ x y : Pattern w, ulpDistance w x y = ulpDistance w y x) ∧
    (∀ x : Pattern w, (decomp w x).cls ≠ .nan → ulpDistance w x x = 0) ∧
    ulpDistance w 0 (signMask w) = 0 ∧
    (∀ (x y : Pattern w) (n : Nat), FinitePattern w x → FinitePattern w y → x.getLsbD (w.bits - 1) = y.getLsbD (w.bits - 1) →
      y.toNat = x.toNat + n → (ulpDistance w x y).toNat = n) ∧
    (∀ m q : Pattern w, FinitePattern w m → FinitePattern w q → m.getLsbD (w.bits - 1) = false → q.getLsbD (w.bits - 1) = false →
      (ulpDistance w (m ||| signMask w) q).toNat = m.toNat + q.toNat)

/-! ## Whole-machine rules -/

/-- 10_state.md R36 and 30_encoding.md R75: every operation completes, and a port (or, at W = 32, an upper half) that it
does not read has no effect on its outputs. The states may differ in everything else as well. -/
def Obligations.UnreadPortsHaveNoEffect : Prop :=
  ∀ (i : Instr) (s t : State), s.params = t.params → AgreeOnOperands i s.inp t.inp →
    ∃ o, exec i s = .next { s with out := some o } ∧ exec i t = .next { t with out := some o }

/-- 10_state.md R38: the outputs each function leaves at 0, and the row of reserved and absent selects. -/
def Obligations.OutputsNotProducedAreZero : Prop :=
  (∀ (i : Instr) (s : State), i.wf s.params = true → ∃ o, exec i s = .next { s with out := some o } ∧
    match i with
    | .f2b32 | .f2b64 | .b2f32 | .b2f64 | .f2i32 | .f2i64 | .i2f32 | .i2f64 | .dst32 | .dst64 =>
      o = { r := o.r, oSign := 0, oExp := 0, oSig := 0, oClass := 0, oErr := 0, oDiag := 0, oIllegal := 0 }
    | .dec32 | .dec64 => o.r = 0 ∧ o.oErr = 0 ∧ o.oDiag = 0 ∧ o.oIllegal = 0
    | .cls32 | .cls64 =>
      o = { r := 0, oSign := 0, oExp := 0, oSig := 0, oClass := o.oClass, oErr := 0, oDiag := 0, oIllegal := 0 }
    | .rec32 | .rec64 => o.oIllegal = 0) ∧
  (∀ (p : Params) (c : InPorts) (e : DecodeError), decode p c.op = .error e →
    evaluate p c = some { r := 0, oSign := 0, oExp := 0, oSig := 0, oClass := 0, oErr := 0, oDiag := 0, oIllegal := 1 })

/-- 10_state.md R41: how a 32-bit result fills `r`. -/
def Obligations.ResultExtensionAtWidth32 : Prop :=
  ∀ s : State, s.params.hasSignedView = true →
    (∀ i : Instr, i = .f2b32 ∨ i = .b2f32 ∨ i = .i2f32 ∨ i = .rec32 ∨ i = .dst32 →
      ∃ o, exec i s = .next { s with out := some o } ∧ o.r = (o.r.setWidth 32).setWidth 64) ∧
    ∃ o, exec .f2i32 s = .next { s with out := some o } ∧ o.r = (o.r.setWidth 32).signExtend 64

/-- 10_state.md R42: which commands can set which flag. -/
def Obligations.FlagsHaveOneOrigin : Prop :=
  ∀ (p : Params) (c : InPorts), ∃ o, evaluate p c = some o ∧
    (o.oErr = 1 → c.op = 0x0A#5 ∨ c.op = 0x0B#5) ∧
    (o.oDiag = 1 → c.op = 0x0A#5 ∨ c.op = 0x0B#5) ∧
    (o.oIllegal = 1 ↔ 0x10 ≤ c.op.toNat ∨ (4 ≤ c.op.toNat ∧ c.op.toNat ≤ 7 ∧ p.hasSignedView = false))

/-- 60_exceptions.md R186: how conditions combine in one command: illegal excludes all else, both causes of an invalid
input can hold at once and both saturations then apply, and `o_err` excludes `o_diag`. -/
def Obligations.SimultaneousConditions : Prop :=
  (∀ (p : Params) (c : InPorts), ∃ o, evaluate p c = some o ∧ (o.oIllegal = 1 → o = illegalPorts) ∧
    (o.oErr = 1 → o.oDiag = 0)) ∧
  (∀ (w : Width) (p : Params) (sign exponent : Int) (significand : Pattern w),
    errExponent w exponent = true → errSignificand w p exponent significand = true →
    let k := constants w
    let x := recomp w p sign exponent significand
    x.err = true ∧ x.diag = false ∧
      x.u.toNat / 2 ^ k.significandBits % 2 ^ k.expBits = k.rawExpReserved ∧
      x.u.toNat % 2 ^ k.significandBits = significand.toNat % 2 ^ k.significandBits)

/-- 60_exceptions.md R180: nothing but the host's own read of unspecified outputs stops the machine, and nothing is
refused. -/
def Obligations.NothingStopsButPrematureRead : Prop :=
  ∀ s : State,
    (∃ t, step s = .next t) ∨
    (step s = .fault .outputsNotValid ∧ s.out = none ∧ Config.pLatency ≠ 0 ∧ ∃ rest, s.schedule = .sample :: rest)

/-- 10_state.md R33: no step changes the configuration. -/
def Obligations.StepsKeepParameters : Prop :=
  ∀ s t : State, step s = .next t → t.params = s.params

/-- Invariant of the model: the outputs, where valid, are those of the command presented last, whose ports the model
holds (00_scope.md R4). R211 of 70_reset_and_hazards.md says so of the ports as they stand only for `P_LATENCY = 0`; with
latency R215 lets the ports change after issue, and the claim then rests on the model's choices that time is omitted (log
entry 3) and that results and ports stand until the host's next action (log entry 14, DEDUCED, unsafe). The second clause
adds log entry 4: what may be read where the outputs are unspecified. -/
def Obligations.StepsKeepOutputsWithTheirCommand : Prop :=
  (∀ s t : State, OutputsBelongToPorts s → step s = .next t → OutputsBelongToPorts t) ∧
  (∀ s : State, OutputsBelongToPorts s →
    visibleOutputs s = if s.out = none ∧ Config.pLatency ≠ 0 then none else evaluate s.params s.inp)

/-- Invariant: every output tuple on the ports or among the host's values obeys the four port rules of `LegalOutputs`:
the class codes (41_codec.md R121), the sign values (10_state.md R40, R38), `o_err` excluding `o_diag` and `o_illegal`
excluding the rest (60_exceptions.md R186, R184). The rules are necessary and not sufficient: they do not say that some
command gives the tuple. -/
def Obligations.StepsKeepOutputsLegal : Prop :=
  ∀ s t : State, OnlyLegalOutputs s → step s = .next t → OnlyLegalOutputs t

/-- Both invariants hold in every build right after reset. -/
def Obligations.ResetMeetsBothInvariants : Prop :=
  ∀ p : Params, OutputsBelongToPorts (State.elaborated p) ∧ OnlyLegalOutputs (State.elaborated p) ∧
    State.reset = State.elaborated Params.specDefault

/-- 20_memory.md R58: the same command presented twice gives the same outputs both times, one presentation after the
other and at any two moments of the same build. -/
def Obligations.CommandsAreIdempotent : Prop :=
  (∀ (s : State) (c : InPorts) (rest : List HostAction), s.schedule = .present c :: .present c :: rest →
    ∃ t u o, step s = .next t ∧ step t = .next u ∧ t.out = some o ∧ u.out = some o ∧ u.schedule = rest) ∧
  (∀ (s t : State) (c : InPorts) (rest rest' : List HostAction), s.params = t.params →
    s.schedule = .present c :: rest → t.schedule = .present c :: rest' →
    ∃ o, step s = .next { s with inp := c, schedule := rest, out := some o } ∧
      step t = .next { t with inp := c, schedule := rest', out := some o })

/-- 70_reset_and_hazards.md R210: an asserted reset, and whatever the outputs were before it, changes nothing of the next
command's step. -/
def Obligations.ResetHasNoVisibleEffect : Prop :=
  ∀ (s : State) (c : InPorts) (rest : List HostAction), s.schedule = .assertReset :: .present c :: rest →
    ∃ t, step s = .next t ∧ step t = step { s with schedule := .present c :: rest }

/-- 20_memory.md R59 and 70_reset_and_hazards.md R214: run any list of commands, reading the outputs after each; the
values the host collects are, command by command, those of `evaluate` on that command alone, whatever was presented
before. So any order, repetition or interleaving gives each command its own results. -/
def Obligations.RunOfCommandsCollectsEachOwnResult : Prop :=
  ∀ (cs : List InPorts) (s : State) (rest : List HostAction),
    s.schedule = cs.flatMap (fun c => [.present c, .sample]) ++ rest →
    ∃ (t : State) (os : List OutPorts), core.run (2 * cs.length) s = .next t ∧
      List.Forall₂ (fun c o => evaluate s.params c = some o) cs os ∧
      t.collected = s.collected ++ os ∧ t.schedule = rest ∧ t.params = s.params

/-- 70_reset_and_hazards.md R212, 00_scope.md R8, R9: elaboration gives a machine exactly for the constants of the table.
That it is a function answering a machine, and that the machine it answers is `State.elaborated p`, the one after reset, is
the model's own (log entry 12, DEDUCED), which no rule states. -/
def Obligations.ElaborationRequiresTheTable : Prop :=
  ∀ (narrow wide : WidthConstants) (p : Params) (s : State),
    elaborate narrow wide p = some s ↔
      narrow =
        { width := 32, expBits := 8, significandBits := 23, expBias := 127, expShift := 23, rawExpMaxValid := 254,
          rawExpReserved := 255, expMin := -127, expNormalMin := -126, expMax := 127, expMaxReserved := 128,
          signMask := 0x80000000, expMask := 0x7F800000, significandMask := 0x007FFFFF, implicitBit := 0x00800000,
          uintMax := 0xFFFFFFFF } ∧
      wide =
        { width := 64, expBits := 11, significandBits := 52, expBias := 1023, expShift := 52, rawExpMaxValid := 2046,
          rawExpReserved := 2047, expMin := -1023, expNormalMin := -1022, expMax := 1023, expMaxReserved := 1024,
          signMask := 0x8000000000000000, expMask := 0x7FF0000000000000, significandMask := 0x000FFFFFFFFFFFFF,
          implicitBit := 0x0010000000000000, uintMax := 0xFFFFFFFFFFFFFFFF } ∧
      constants .w32 = narrow ∧ constants .w64 = wide ∧ s = State.elaborated p
end

