-- ==== Sys2Proof/Laws/Bits.lean ====
section
/-! SUPPORT. The field extractions of a pattern as quotients and remainders (20_memory.md R53): one lemma per extraction,
and the facts about single masks they rest on. -/

namespace Sys2Proof.Machine

/-- The sign bit is bit W-1. -/
theorem signBitSet_eq_getLsbD (w : Width) (u : Pattern w) : signBitSet w u = u.getLsbD (w.bits - 1) := by
  have key : ∀ {n : Nat} (v : BitVec (n + 1)), ((v &&& BitVec.twoPow (n + 1) n) != 0#(n + 1)) = v.getLsbD n := by
    intro n v
    rw [BitVec.and_twoPow]
    have hlt : 2 ^ n < 2 ^ (n + 1) := by rw [Nat.pow_succ]; have := Nat.two_pow_pos n; omega
    have hne : BitVec.twoPow (n + 1) n ≠ 0#(n + 1) := by
      rw [Ne, ← BitVec.toNat_inj, BitVec.toNat_twoPow, Nat.mod_eq_of_lt hlt]
      exact (Nat.two_pow_pos n).ne'
    cases v.getLsbD n <;> simp [hne]
  cases w
  · exact key (n := 31) u
  · exact key (n := 63) u

/-- A pattern and its sign bit as numbers. -/
theorem signBitSet_iff_le (w : Width) (u : Pattern w) : signBitSet w u = true ↔ 2 ^ (w.bits - 1) ≤ u.toNat := by
  rw [signBitSet_eq_getLsbD]
  cases w
  · have := u.isLt
    simp only [BitVec.getLsbD, Nat.testBit_eq_decide_div_mod_eq, decide_eq_true_eq, Width.bits] at *
    omega
  · have := u.isLt
    simp only [BitVec.getLsbD, Nat.testBit_eq_decide_div_mod_eq, decide_eq_true_eq, Width.bits] at *
    omega

/-- The raw significand is the remainder of the significand field's size. -/
theorem rawSignificand_toNat (w : Width) (u : Pattern w) :
    (rawSignificand w u).toNat = u.toNat % 2 ^ (constants w).significandBits := by
  cases w
  · exact Nat.and_two_pow_sub_one_eq_mod u.toNat 23
  · exact Nat.and_two_pow_sub_one_eq_mod u.toNat 52

/-- Masking with `2^e - 1` moved up by `s` and moving down again is quotient and remainder. -/
theorem and_mask_shiftRight (x e s : Nat) : (x &&& ((2 ^ e - 1) <<< s)) >>> s = x / 2 ^ s % 2 ^ e := by
  rw [Nat.shiftRight_and_distrib, Nat.shiftLeft_shiftRight, Nat.shiftRight_eq_div_pow, Nat.and_two_pow_sub_one_eq_mod]

/-- The raw exponent is the exponent field of the number the pattern is. -/
theorem rawExponent_eq (w : Width) (u : Pattern w) :
    rawExponent w u = u.toNat / 2 ^ (constants w).significandBits % 2 ^ (constants w).expBits := by
  cases w
  · exact and_mask_shiftRight u.toNat 8 23
  · exact and_mask_shiftRight u.toNat 11 52

/-- Clearing the sign bit takes the remainder of half the range. -/
theorem magnitude_toNat (w : Width) (u : Pattern w) : (magnitude w u).toNat = u.toNat % 2 ^ (w.bits - 1) := by
  cases w
  · exact Nat.and_two_pow_sub_one_eq_mod u.toNat 31
  · exact Nat.and_two_pow_sub_one_eq_mod u.toNat 63

/-- The raw significand fits its field. -/
theorem rawSignificand_lt (w : Width) (u : Pattern w) :
    (rawSignificand w u).toNat < 2 ^ (constants w).significandBits := by
  rw [rawSignificand_toNat]
  exact Nat.mod_lt _ (Nat.two_pow_pos _)

/-- A set bit above the field adds its value. -/
theorem or_implicitBit_toNat (w : Width) (m : Pattern w) (h : m.toNat < 2 ^ (constants w).significandBits) :
    (m ||| implicitBit w).toNat = m.toNat + 2 ^ (constants w).significandBits := by
  cases w
  · have := Nat.two_pow_add_eq_or_of_lt h 1
    simp only [constants, Nat.mul_one] at this
    rw [BitVec.toNat_or, Nat.or_comm, Nat.add_comm]
    exact this.symm
  · have := Nat.two_pow_add_eq_or_of_lt h 1
    simp only [constants, Nat.mul_one] at this
    rw [BitVec.toNat_or, Nat.or_comm, Nat.add_comm]
    exact this.symm

/-- Doubling a field's value loses no bit (41_codec.md R122). -/
theorem shiftLeft_one_toNat (w : Width) (m : Pattern w) (h : m.toNat < 2 ^ (constants w).significandBits) :
    (m <<< 1).toNat = 2 * m.toNat := by
  rw [BitVec.toNat_shiftLeft]
  cases w <;> simp only [constants, Width.bits] at * <;> omega

/-- The denormalised significand as a number (41_codec.md R122, step 6). -/
theorem denormalised_toNat (w : Width) (e : Int) (m : Pattern w) (h : m.toNat < 2 ^ (constants w).significandBits) :
    (denormalised w e m).toNat =
      if e = (constants w).expMin then 2 * m.toNat else m.toNat + 2 ^ (constants w).significandBits := by
  unfold denormalised
  split
  · exact shiftLeft_one_toNat w m h
  · exact or_implicitBit_toNat w m h

end Sys2Proof.Machine
end

