-- ==== Sys2Proof/Laws/Codec.lean ====
section
/-! SUPPORT. What the parts of RECOMP_W are as numbers: the prepared significand, the mask test, the packed exponent and
the packed pattern (41_codec.md R129 to R132). -/

namespace Sys2Proof.Machine

/-- Step 3 as a number (41_codec.md R131). -/
theorem preSignificand_toNat (w : Width) (e : Int) (m : Pattern w) :
    (preSignificand w e m).toNat = if e = (constants w).expMin then m.toNat / 2 else m.toNat := by
  unfold preSignificand
  split
  · rw [BitVec.toNat_ushiftRight, Nat.shiftRight_eq_div_pow, Nat.pow_one]
  · rfl

/-- A value has a bit outside the mask of its low `k` bits exactly when it reaches `2^k`. -/
theorem and_not_lowMask_ne_zero {n : Nat} (x mask : BitVec n) (k : Nat) (hk : k ≤ n) (hmask : mask.toNat = 2 ^ k - 1) :
    ((x &&& ~~~mask) != 0) = true ↔ 2 ^ k ≤ x.toNat := by
  have hm : mask = (BitVec.allOnes k).setWidth n := by
    apply BitVec.eq_of_toNat_eq
    rw [hmask, BitVec.toNat_setWidth, BitVec.toNat_allOnes, Nat.mod_eq_of_lt]
    have := Nat.two_pow_pos k
    have := Nat.pow_le_pow_right (n := 2) (by decide) hk
    omega
  rw [bne_iff_ne, Ne, ← not_lt, not_iff_not]
  constructor
  · intro h
    refine Nat.lt_pow_two_of_testBit _ fun i hi => ?_
    by_cases hin : i < n
    · have hb := congrArg (fun v => v.getLsbD i) h
      have hx : x.getLsbD i = false := by simpa [hm, hin, Nat.not_lt.mpr hi] using hb
      exact hx
    · exact BitVec.getLsbD_of_ge x i (Nat.not_lt.mp hin)
  · intro h
    apply BitVec.eq_of_getLsbD_eq
    intro i hi
    by_cases hik : i < k
    · simp [hm, hi, hik]
    · have : x.getLsbD i = false := Nat.testBit_lt_two_pow (Nat.lt_of_lt_of_le h
        (Nat.pow_le_pow_right (by decide) (Nat.not_lt.mp hik)))
      simp [this]

/-- The two allowed sets are the low SB and the low SB + 1 bits (41_codec.md R131). -/
theorem allowedBits_toNat (w : Width) (p : Params) (e : Int) :
    (allowedBits w p e).toNat =
      if e = (constants w).expMin ∨ p.flagImplicitBit = true then 2 ^ (constants w).significandBits - 1
      else 2 ^ ((constants w).significandBits + 1) - 1 := by
  unfold allowedBits
  split <;> cases w <;> rfl

/-- The packed exponent fits its field (41_codec.md R129). -/
theorem packedExponent_lt (w : Width) (e : Int) : packedExponent w e < 2 ^ (constants w).expBits := by
  unfold packedExponent
  split
  · cases w <;> decide
  · rename_i h
    simp only [errExponent, Bool.or_eq_true, decide_eq_true_eq] at h
    cases w <;> simp only [constants] at * <;> omega

/-- The three packed fields occupy disjoint bits, so packing is a sum (41_codec.md R129, R132). -/
theorem packed_toNat (w : Width) (s e : Int) (m : Pattern w) :
    (packed w s e m).toNat =
      (if s < 0 then 1 else 0) * 2 ^ (w.bits - 1) + packedExponent w e * 2 ^ (constants w).significandBits +
        (preSignificand w e m).toNat % 2 ^ (constants w).significandBits := by
  have hr := rawSignificand_toNat w (preSignificand w e m)
  have hlt := rawSignificand_lt w (preSignificand w e m)
  have hx := packedExponent_lt w e
  have hsign : (((if s < 0 then 1 else 0 : Pattern w) <<< (w.bits - 1))).toNat =
      (if s < 0 then 1 else 0) * 2 ^ (w.bits - 1) := by
    cases w <;> split <;> rfl
  have hexp : (BitVec.ofNat w.bits (packedExponent w e) <<< (constants w).significandBits).toNat =
      packedExponent w e * 2 ^ (constants w).significandBits := by
    rw [BitVec.toNat_shiftLeft, BitVec.toNat_ofNat, Nat.shiftLeft_eq]
    cases w <;> simp only [constants, Width.bits] at * <;> omega
  have hlow : ∀ a b i : Nat, b < 2 ^ i → (a * 2 ^ i) ||| b = a * 2 ^ i + b := by
    intro a b i h
    rw [Nat.mul_comm, Nat.two_pow_add_eq_or_of_lt h]
  unfold packed
  rw [BitVec.toNat_or, BitVec.toNat_or, hsign, hexp, ← hr]
  change _ ||| (rawSignificand w (preSignificand w e m)).toNat = _
  rw [hlow _ _ (w.bits - 1) (by cases w <;> simp only [constants, Width.bits] at * <;> omega)]
  have hsum : (if s < 0 then 1 else 0) * 2 ^ (w.bits - 1) + packedExponent w e * 2 ^ (constants w).significandBits =
      ((if s < 0 then 1 else 0) * 2 ^ (constants w).expBits + packedExponent w e) * 2 ^ (constants w).significandBits := by
    cases w <;> simp only [constants, Width.bits] <;> split <;> omega
  rw [hsum, hlow _ _ _ hlt]

end Sys2Proof.Machine
end

