-- ==== Sys2Proof/Laws/State.lean ====
section
/-! SUPPORT. One lemma per field and update of State, so that no later proof unfolds a record update. -/

namespace Sys2Proof.Machine

@[simp] theorem drive_params (o : OutPorts) (s : State) : (drive o s).params = s.params := rfl
@[simp] theorem drive_inp (o : OutPorts) (s : State) : (drive o s).inp = s.inp := rfl
@[simp] theorem drive_out (o : OutPorts) (s : State) : (drive o s).out = some o := rfl
@[simp] theorem drive_schedule (o : OutPorts) (s : State) : (drive o s).schedule = s.schedule := rfl
@[simp] theorem drive_collected (o : OutPorts) (s : State) : (drive o s).collected = s.collected := rfl

@[simp] theorem capture_params (c : InPorts) (s : State) : (capture c s).params = s.params := rfl
@[simp] theorem capture_inp (c : InPorts) (s : State) : (capture c s).inp = c := rfl
@[simp] theorem capture_out (c : InPorts) (s : State) : (capture c s).out = s.out := rfl
@[simp] theorem capture_schedule (c : InPorts) (s : State) : (capture c s).schedule = s.schedule := rfl
@[simp] theorem capture_collected (c : InPorts) (s : State) : (capture c s).collected = s.collected := rfl

@[simp] theorem resetOutputs_params (s : State) : (resetOutputs s).params = s.params := rfl
@[simp] theorem resetOutputs_inp (s : State) : (resetOutputs s).inp = s.inp := rfl
@[simp] theorem resetOutputs_out (s : State) : (resetOutputs s).out = none := rfl
@[simp] theorem resetOutputs_schedule (s : State) : (resetOutputs s).schedule = s.schedule := rfl
@[simp] theorem resetOutputs_collected (s : State) : (resetOutputs s).collected = s.collected := rfl

@[simp] theorem collect_params (o : OutPorts) (s : State) : (collect o s).params = s.params := rfl
@[simp] theorem collect_inp (o : OutPorts) (s : State) : (collect o s).inp = s.inp := rfl
@[simp] theorem collect_out (o : OutPorts) (s : State) : (collect o s).out = s.out := rfl
@[simp] theorem collect_schedule (o : OutPorts) (s : State) : (collect o s).schedule = s.schedule := rfl
@[simp] theorem collect_collected (o : OutPorts) (s : State) : (collect o s).collected = s.collected ++ [o] := rfl

@[simp] theorem elaborated_params (p : Params) : (State.elaborated p).params = p := rfl
@[simp] theorem elaborated_inp (p : Params) : (State.elaborated p).inp = InPorts.zero := rfl
@[simp] theorem elaborated_out (p : Params) : (State.elaborated p).out = none := rfl
@[simp] theorem elaborated_schedule (p : Params) : (State.elaborated p).schedule = [] := rfl
@[simp] theorem elaborated_collected (p : Params) : (State.elaborated p).collected = [] := rfl

/-- Capturing the command that is on the ports already changes nothing. -/
@[simp] theorem capture_self (s : State) : capture s.inp s = s := rfl

/-- A second drive overwrites the first. -/
@[simp] theorem drive_drive (o o' : OutPorts) (s : State) : drive o (drive o' s) = drive o s := rfl

/-- Driving after a reset of the outputs is driving. -/
@[simp] theorem drive_resetOutputs (o : OutPorts) (s : State) : drive o (resetOutputs s) = drive o s := rfl

/-- An operation of the signed view in a build that has it. -/
theorem driveSignedView_present (r : BitVec 64) {s : State} (h : s.params.hasSignedView = true) :
    driveSignedView r s = driveResult r s := if_pos h

/-- An operation of the signed view in a build without it. -/
theorem driveSignedView_absent (r : BitVec 64) {s : State} (h : s.params.hasSignedView = false) :
    driveSignedView r s = illegal s := if_neg (by simp [h])

end Sys2Proof.Machine
end

