-- ==== Sys2Proof/Laws/Exec.lean ====
section
/-! SUPPORT. What a command and a step can do, said once: later proofs cite these instead of unfolding `exec`. -/

namespace Sys2Proof.Machine

/-- Every operation drives the outputs and touches nothing else, and what it drives depends on the parameters and the
input ports alone. -/
theorem exec_drives (i : Instr) (p : Params) (c : InPorts) :
    ∃ o, ∀ s : State, s.params = p → s.inp = c → exec i s = .next (drive o s) := by
  have signedView : ∀ r : InPorts → BitVec 64, ∃ o, ∀ s : State, s.params = p → s.inp = c →
      Host.Outcome.next (ρ := Refusal) (φ := Fault) (driveSignedView (r s.inp) s) = .next (drive o s) := by
    intro r
    refine ⟨if p.hasSignedView = true then { idlePorts with r := r c } else illegalPorts, fun s hp hc => ?_⟩
    subst hp hc
    unfold driveSignedView
    split <;> rfl
  cases i
  case f2i32 => exact signedView fun c => sext64 (operandA .w32 c)
  case f2i64 => exact signedView fun c => sext64 (operandA .w64 c)
  case i2f32 => exact signedView fun c => zext64 (operandA .w32 c)
  case i2f64 => exact signedView fun c => zext64 (operandA .w64 c)
  case f2b32 => exact ⟨{ idlePorts with r := zext64 (operandA .w32 c) }, fun s _ hc => by subst hc; rfl⟩
  case f2b64 => exact ⟨{ idlePorts with r := zext64 (operandA .w64 c) }, fun s _ hc => by subst hc; rfl⟩
  case b2f32 => exact ⟨{ idlePorts with r := zext64 (operandA .w32 c) }, fun s _ hc => by subst hc; rfl⟩
  case b2f64 => exact ⟨{ idlePorts with r := zext64 (operandA .w64 c) }, fun s _ hc => by subst hc; rfl⟩
  case dec32 => exact ⟨fieldPorts (decomp .w32 (operandA .w32 c)), fun s _ hc => by subst hc; rfl⟩
  case dec64 => exact ⟨fieldPorts (decomp .w64 (operandA .w64 c)), fun s _ hc => by subst hc; rfl⟩
  case rec32 =>
    exact ⟨recomposedPorts (recomp .w32 p (operandSign c) (operandExponent c) (operandSignificand .w32 c)),
      fun s hp hc => by subst hp hc; rfl⟩
  case rec64 =>
    exact ⟨recomposedPorts (recomp .w64 p (operandSign c) (operandExponent c) (operandSignificand .w64 c)),
      fun s hp hc => by subst hp hc; rfl⟩
  case dst32 =>
    exact ⟨{ idlePorts with r := zext64 (ulpDistance .w32 (operandA .w32 c) (operandB .w32 c)) }, fun s _ hc => by subst hc; rfl⟩
  case dst64 =>
    exact ⟨{ idlePorts with r := zext64 (ulpDistance .w64 (operandA .w64 c) (operandB .w64 c)) }, fun s _ hc => by subst hc; rfl⟩
  case cls32 => exact ⟨classPorts (decomp .w32 (operandA .w32 c)), fun s _ hc => by subst hc; rfl⟩
  case cls64 => exact ⟨classPorts (decomp .w64 (operandA .w64 c)), fun s _ hc => by subst hc; rfl⟩

/-- A command gives its outputs as a function of the command, and touches nothing else (00_scope.md R4). -/
theorem runCommand_drives (s : State) :
    ∃ o, evaluate s.params s.inp = some o ∧ runCommand s = .next (drive o s) := by
  unfold evaluate
  cases hd : decode s.params s.inp.op with
  | ok i =>
    obtain ⟨o, ho⟩ := exec_drives i s.params s.inp
    have run : ∀ t : State, t.params = s.params → t.inp = s.inp → runCommand t = .next (drive o t) := by
      intro t hp hc
      unfold runCommand
      rw [hp, hc, hd]
      exact ho t hp hc
    exact ⟨o, by rw [run (capture s.inp (State.elaborated s.params)) rfl rfl]; rfl, run s rfl rfl⟩
  | error e =>
    have run : ∀ t : State, t.params = s.params → t.inp = s.inp → runCommand t = .next (drive illegalPorts t) := by
      intro t hp hc
      unfold runCommand
      rw [hp, hc, hd]
      rfl
    exact ⟨illegalPorts, by rw [run (capture s.inp (State.elaborated s.params)) rfl rfl]; rfl, run s rfl rfl⟩

/-- Every command has an output tuple. -/
theorem evaluate_isSome (p : Params) (c : InPorts) : ∃ o, evaluate p c = some o :=
  let ⟨o, h, _⟩ := runCommand_drives (capture c (State.elaborated p))
  ⟨o, h⟩

/-- What is visible is what the ports hold or what the command on the ports gives. -/
theorem visibleOutputs_cases {s : State} {o : OutPorts} (h : visibleOutputs s = some o) :
    s.out = some o ∨ s.out = none ∧ evaluate s.params s.inp = some o := by
  unfold visibleOutputs at h
  split at h
  · rename_i o' ho
    cases h
    exact .inl ho
  · rename_i hn
    split at h
    · exact .inr ⟨hn, h⟩
    · cases h

/-- The step, taken apart by the host's next action. -/
theorem step_of_schedule {s : State} {act : HostAction} {rest : List HostAction} (h : s.schedule = act :: rest) :
    step s = runAction act { s with schedule := rest } := by
  unfold step
  rw [h]

/-- Everything a step that answers a next state can do. -/
theorem step_cases {s t : State} (h : step s = .next t) :
    (s.schedule = [] ∧ t = s) ∨
    (∃ c rest o, s.schedule = .present c :: rest ∧ evaluate s.params c = some o ∧
      t = { s with inp := c, out := some o, schedule := rest }) ∨
    (∃ rest o, s.schedule = .sample :: rest ∧ visibleOutputs { s with schedule := rest } = some o ∧
      t = { s with schedule := rest, collected := s.collected ++ [o] }) ∨
    (∃ rest, s.schedule = .assertReset :: rest ∧ t = { s with out := none, schedule := rest }) := by
  cases hs : s.schedule with
  | nil =>
    unfold step at h
    rw [hs] at h
    cases h
    exact .inl ⟨rfl, rfl⟩
  | cons act rest =>
    rw [step_of_schedule hs] at h
    cases act with
    | present c =>
      obtain ⟨o, he, hr⟩ := runCommand_drives (capture c { s with schedule := rest })
      have h' : Host.Outcome.next (φ := Fault) (ρ := Refusal) (drive o (capture c { s with schedule := rest })) = .next t :=
        hr.symm.trans h
      cases h'
      exact .inr (.inl ⟨c, rest, o, rfl, he, rfl⟩)
    | sample =>
      simp only [runAction, sampleOutputs] at h
      split at h
      · rename_i o ho
        cases h
        exact .inr (.inr (.inl ⟨rest, o, rfl, ho, rfl⟩))
      · cases h
    | assertReset =>
      cases h
      exact .inr (.inr (.inr ⟨rest, rfl, rfl⟩))

/-- One step of a run, taken off its front. -/
theorem run_succ (C : Host.Core) {s t : C.State} (k : Nat) (h : C.step s = .next t) :
    C.run (k + 1) s = C.run k t := by
  simp only [Host.Core.run, h]

end Sys2Proof.Machine
end

