-- ==== Sys2Proof/Laws/PerInstr.lean ====
section
/-! SUPPORT. One lemma per operation: where its operation select lies (30_encoding.md R71, R72). -/

namespace Sys2Proof.Laws

/-- The operation select is below the reserved codes, and its bit 0 is the width the operation runs at. -/
def OperationSelect.Statement (i : Instr) : Prop :=
  (encode i).toNat < 0x10 ∧ widthSelect (encode i) = i.width

theorem OperationSelect.f2b32 : OperationSelect.Statement .f2b32 := by unfold OperationSelect.Statement; decide
theorem OperationSelect.f2b64 : OperationSelect.Statement .f2b64 := by unfold OperationSelect.Statement; decide
theorem OperationSelect.b2f32 : OperationSelect.Statement .b2f32 := by unfold OperationSelect.Statement; decide
theorem OperationSelect.b2f64 : OperationSelect.Statement .b2f64 := by unfold OperationSelect.Statement; decide
theorem OperationSelect.f2i32 : OperationSelect.Statement .f2i32 := by unfold OperationSelect.Statement; decide
theorem OperationSelect.f2i64 : OperationSelect.Statement .f2i64 := by unfold OperationSelect.Statement; decide
theorem OperationSelect.i2f32 : OperationSelect.Statement .i2f32 := by unfold OperationSelect.Statement; decide
theorem OperationSelect.i2f64 : OperationSelect.Statement .i2f64 := by unfold OperationSelect.Statement; decide
theorem OperationSelect.dec32 : OperationSelect.Statement .dec32 := by unfold OperationSelect.Statement; decide
theorem OperationSelect.dec64 : OperationSelect.Statement .dec64 := by unfold OperationSelect.Statement; decide
theorem OperationSelect.rec32 : OperationSelect.Statement .rec32 := by unfold OperationSelect.Statement; decide
theorem OperationSelect.rec64 : OperationSelect.Statement .rec64 := by unfold OperationSelect.Statement; decide
theorem OperationSelect.dst32 : OperationSelect.Statement .dst32 := by unfold OperationSelect.Statement; decide
theorem OperationSelect.dst64 : OperationSelect.Statement .dst64 := by unfold OperationSelect.Statement; decide
theorem OperationSelect.cls32 : OperationSelect.Statement .cls32 := by unfold OperationSelect.Statement; decide
theorem OperationSelect.cls64 : OperationSelect.Statement .cls64 := by unfold OperationSelect.Statement; decide

end Sys2Proof.Laws
end

