-- ==== Sys2Proof/Tests/Slice0.lean ====
section
/-! SUPPORT. The model's own tests. Expected results are the vectors of 95_test_vectors.md (named TV-… or by program and
step), and the words are written out from the encoding of 30_encoding.md R70 to R72 (FUNC, then WSEL). Then the
witnesses: for every statement with hypotheses, concrete values that meet them together. -/

namespace Sys2Proof.Tests

open Sys2Proof.Machine

/-! ## Helpers -/

/-- The spec's default build. -/
def dflt : Params := Params.specDefault
/-- A build without the signed view. -/
def noView : Params := { Params.specDefault with hasSignedView := false }
/-- A build without the diagnostic. -/
def noDiag : Params := { Params.specDefault with hasDiag := false }
/-- A build with the literal reading of the implicit bit. -/
def literalBit : Params := { Params.specDefault with flagImplicitBit := true }

/-- A command on port `a` (and `b`). -/
def cmdA (op : BitVec 5) (a : BitVec 64) (b : BitVec 64 := 0) : InPorts := ⟨op, a, b, 0, 0, 0⟩
/-- A command on the field ports. -/
def cmdF (op : BitVec 5) (s e : Int) (m : BitVec 64) : InPorts := ⟨op, 0, 0, BitVec.ofInt 8 s, BitVec.ofInt 16 e, m⟩

/-- A small state: the host is about to do `schedule`. -/
def start (p : Params) (schedule : List HostAction) : State := { State.elaborated p with schedule := schedule }

/-- The outputs after one step that presents `c`. -/
def outputs (p : Params) (c : InPorts) : Option OutPorts :=
  match step (start p [.present c]) with
  | .next t => t.out
  | .fault _ => none
  | .refused _ => none

/-- A result on `r` alone. -/
def resultOnly (r : BitVec 64) : Option OutPorts := some ⟨r, 0, 0, 0, 0, 0, 0, 0⟩
/-- Fields and class alone. -/
def fieldsOnly (s : BitVec 8) (e : BitVec 16) (m : BitVec 64) (c : BitVec 3) : Option OutPorts := some ⟨0, s, e, m, c, 0, 0, 0⟩
/-- A class alone. -/
def classOnly (c : BitVec 3) : Option OutPorts := some ⟨0, 0, 0, 0, c, 0, 0, 0⟩

/-! ## Well-formedness: the one check there is, an operation of the signed view in a build without it -/

theorem test_wf_refuses_absent_view :
    Instr.wf noView .f2i32 = false ∧ Instr.wf noView .f2i64 = false ∧ Instr.wf noView .i2f32 = false ∧
      Instr.wf noView .i2f64 = false := by decide

theorem test_wf_accepts_present_view : Instr.wf dflt .f2i32 = true ∧ Instr.wf noView .dec32 = true := by decide

/-! ## Decoding: every row's word -/

theorem test_decode_reinterpret :
    decode dflt 0b00000#5 = .ok .f2b32 ∧ decode dflt 0b00001#5 = .ok .f2b64 ∧
    decode dflt 0b00010#5 = .ok .b2f32 ∧ decode dflt 0b00011#5 = .ok .b2f64 := by decide

theorem test_decode_signed_view :
    decode dflt 0b00100#5 = .ok .f2i32 ∧ decode dflt 0b00101#5 = .ok .f2i64 ∧
    decode dflt 0b00110#5 = .ok .i2f32 ∧ decode dflt 0b00111#5 = .ok .i2f64 := by decide

theorem test_decode_codec :
    decode dflt 0b01000#5 = .ok .dec32 ∧ decode dflt 0b01001#5 = .ok .dec64 ∧ decode dflt 0b01010#5 = .ok .rec32 ∧
    decode dflt 0b01011#5 = .ok .rec64 ∧ decode dflt 0b01110#5 = .ok .cls32 ∧ decode dflt 0b01111#5 = .ok .cls64 := by
  decide

theorem test_decode_distance :
    decode dflt 0b01100#5 = .ok .dst32 ∧ decode dflt 0b01101#5 = .ok .dst64 := by decide

theorem test_decode_rejects_by_name :
    decode dflt 0b10000#5 = .error .reservedFunction ∧ decode noView 0b10101#5 = .error .reservedFunction ∧
    decode noView 0b00100#5 = .error .signedViewAbsent ∧ decode noView 0b00111#5 = .error .signedViewAbsent := by
  decide

/-- The table's words, in whole bytes, and the step that runs one first after reset. -/
theorem test_table_word :
    decodeTableWord 8 0x0D = some .dst64 ∧ decodeTableWord 8 0x10 = none ∧
    (match step (State.reset.withFetchWord 8 0x0E) with
      | .next t => t.out
      | .fault _ => none
      | .refused _ => none) = classOnly 2 := by decide

/-! ## Reinterpretation -/

/-- TV-B-1, TV-B-2. -/
theorem test_f2b32 :
    outputs dflt (cmdA 0x00 0xFFFFFFFF3F800000) = resultOnly 0x000000003F800000 ∧
    outputs dflt (cmdA 0x00 0x7F800001) = resultOnly 0x000000007F800001 := by decide

/-- TV-B-4. -/
theorem test_f2b64 : outputs dflt (cmdA 0x01 0x7FF0000000000001) = resultOnly 0x7FF0000000000001 := by decide

/-- TV-B-6. -/
theorem test_b2f32 : outputs dflt (cmdA 0x02 0xFFC00001) = resultOnly 0x00000000FFC00001 := by decide

/-- TV-B-7. -/
theorem test_b2f64 : outputs dflt (cmdA 0x03 0x8000000000000000) = resultOnly 0x8000000000000000 := by decide

/-- TV-B-9, TV-B-10, TV-IL-4. -/
theorem test_f2i32 :
    outputs dflt (cmdA 0x04 0xBF800000) = resultOnly 0xFFFFFFFFBF800000 ∧
    outputs dflt (cmdA 0x04 0x3F800000) = resultOnly 0x000000003F800000 ∧
    outputs noView (cmdA 0x04 0xBF800000) = some ⟨0, 0, 0, 0, 0, 0, 0, 1⟩ := by decide

/-- TV-B-12. -/
theorem test_f2i64 : outputs dflt (cmdA 0x05 0xC000000000000000) = resultOnly 0xC000000000000000 := by decide

/-- TV-B-13, TV-B-14. -/
theorem test_i2f32 :
    outputs dflt (cmdA 0x06 0xFFFFFFFFBF800000) = resultOnly 0x00000000BF800000 ∧
    outputs dflt (cmdA 0x06 0xFF800000) = resultOnly 0x00000000FF800000 := by decide

/-- TV-B-15, TV-IL-5. -/
theorem test_i2f64 :
    outputs dflt (cmdA 0x07 0xFFFFFFFFFFFFFFFF) = resultOnly 0xFFFFFFFFFFFFFFFF ∧
    outputs noView (cmdA 0x07 0x1) = some ⟨0, 0, 0, 0, 0, 0, 0, 1⟩ := by decide

/-! ## Decompose and classify -/

/-- TV-D32-2, TV-D32-4, TV-D32-5. -/
theorem test_dec32_zero_subnormal_normal :
    outputs dflt (cmdA 0x08 0x80000000) = fieldsOnly 0xFF 0xFF81 0 2 ∧
    outputs dflt (cmdA 0x08 0x007FFFFF) = fieldsOnly 0x01 0xFF81 0xFFFFFE 3 ∧
    outputs dflt (cmdA 0x08 0x00800000) = fieldsOnly 0x01 0xFF82 0x800000 4 := by decide

/-- TV-D32-12, TV-D32-16, TV-IL-6. -/
theorem test_dec32_inf_nan :
    outputs dflt (cmdA 0x08 0x7F800000) = fieldsOnly 0x01 0x0080 0x800000 1 ∧
    outputs dflt (cmdA 0x08 0xFFFFFFFF) = fieldsOnly 0xFF 0x0080 0xFFFFFF 0 ∧
    outputs noView (cmdA 0x08 0x3F800000) = fieldsOnly 0x01 0x0000 0x800000 4 := by decide

/-- TV-D64-3, TV-D64-8. -/
theorem test_dec64_subnormal_normal :
    outputs dflt (cmdA 0x09 0x0000000000000001) = fieldsOnly 0x01 0xFC01 0x2 3 ∧
    outputs dflt (cmdA 0x09 0xC004000000000000) = fieldsOnly 0xFF 0x0001 0x14000000000000 4 := by decide

/-- TV-D64-11, TV-D64-13. -/
theorem test_dec64_inf_nan :
    outputs dflt (cmdA 0x09 0xFFF0000000000000) = fieldsOnly 0xFF 0x0400 0x10000000000000 1 ∧
    outputs dflt (cmdA 0x09 0x7FF0000000000001) = fieldsOnly 0x01 0x0400 0x10000000000001 0 := by decide

/-- TV-C-1 to TV-C-5. -/
theorem test_cls32 :
    outputs dflt (cmdA 0x0E 0x7FC00000) = classOnly 0 ∧ outputs dflt (cmdA 0x0E 0xFF800000) = classOnly 1 ∧
    outputs dflt (cmdA 0x0E 0x80000000) = classOnly 2 ∧ outputs dflt (cmdA 0x0E 0x00000001) = classOnly 3 ∧
    outputs dflt (cmdA 0x0E 0x00800000) = classOnly 4 := by decide

/-- TV-C-6 to TV-C-10. -/
theorem test_cls64 :
    outputs dflt (cmdA 0x0F 0x7FF0000000000001) = classOnly 0 ∧ outputs dflt (cmdA 0x0F 0x7FF0000000000000) = classOnly 1 ∧
    outputs dflt (cmdA 0x0F 0) = classOnly 2 ∧ outputs dflt (cmdA 0x0F 1) = classOnly 3 ∧
    outputs dflt (cmdA 0x0F 0x7FEFFFFFFFFFFFFF) = classOnly 4 := by decide

/-! ## Recompose -/

/-- TV-R32-2, TV-R32-6, TV-R32-10, TV-R32-23, TV-RD-2. -/
theorem test_rec32_valid_and_diagnosed :
    outputs dflt (cmdF 0x0A (-1) 1 0x800000) = some ⟨0xC0000000, 0xFF, 1, 0x800000, 4, 0, 0, 0⟩ ∧
    outputs dflt (cmdF 0x0A 1 (-127) 0x1) = some ⟨0, 0x01, 0xFF81, 0, 2, 0, 1, 0⟩ ∧
    outputs dflt (cmdF 0x0A 1 (-126) 0x1) = some ⟨0x00800001, 0x01, 0xFF82, 0x800001, 4, 0, 1, 0⟩ ∧
    outputs dflt (cmdF 0x0A (-128) 0 0x800000) = some ⟨0xBF800000, 0xFF, 0, 0x800000, 4, 0, 1, 0⟩ ∧
    outputs noDiag (cmdF 0x0A 0 0 0x800000) = some ⟨0x3F800000, 0x01, 0, 0x800000, 4, 0, 0, 0⟩ := by decide

/-- TV-R32-8, TV-R32-17, TV-R32-24, TV-R32-25, TV-RF-1, TV-RF-4. -/
theorem test_rec32_errors :
    outputs dflt (cmdF 0x0A 1 (-127) 0x1000000) = some ⟨0, 0x01, 0xFF81, 0, 2, 1, 0, 0⟩ ∧
    outputs dflt (cmdF 0x0A 1 (-128) 0) = some ⟨0x7F800000, 0x01, 0x0080, 0x800000, 1, 1, 0, 0⟩ ∧
    outputs dflt (cmdF 0x0A 1 200 0xFFFFFFFF) = some ⟨0x7FFFFFFF, 0x01, 0x0080, 0xFFFFFF, 0, 1, 0, 0⟩ ∧
    outputs dflt (cmdF 0x0A 1 0 0x100800000) = some ⟨0x3F800000, 0x01, 0, 0x800000, 4, 0, 0, 0⟩ ∧
    outputs literalBit (cmdF 0x0A 1 0 0x800000) = some ⟨0x3F800000, 0x01, 0, 0x800000, 4, 1, 0, 0⟩ ∧
    outputs literalBit (cmdF 0x0A 1 128 0) = some ⟨0x7F800000, 0x01, 0x0080, 0x800000, 1, 0, 1, 0⟩ := by decide

/-- TV-R64-2, TV-R64-4, TV-R64-5, TV-RD-1. -/
theorem test_rec64_valid_and_diagnosed :
    outputs dflt (cmdF 0x0B 1 1024 0) = some ⟨0x7FF0000000000000, 0x01, 0x0400, 0x10000000000000, 1, 0, 1, 0⟩ ∧
    outputs dflt (cmdF 0x0B 1 (-1023) 2) = some ⟨1, 0x01, 0xFC01, 2, 3, 0, 0, 0⟩ ∧
    outputs dflt (cmdF 0x0B 1 1023 0x1FFFFFFFFFFFFF) = some ⟨0x7FEFFFFFFFFFFFFF, 0x01, 0x03FF, 0x1FFFFFFFFFFFFF, 4, 0, 0, 0⟩ ∧
    outputs noDiag (cmdF 0x0B 1 1024 0) = some ⟨0x7FF0000000000000, 0x01, 0x0400, 0x10000000000000, 1, 0, 0, 0⟩ := by decide

/-- TV-R64-8, TV-R64-9, TV-RF-5. -/
theorem test_rec64_errors :
    outputs dflt (cmdF 0x0B (-1) (-1024) 0x10000000000000) = some ⟨0xFFF0000000000000, 0xFF, 0x0400, 0x10000000000000, 1, 1, 0, 0⟩ ∧
    outputs dflt (cmdF 0x0B 1 0 0x30000000000000) = some ⟨0x3FF0000000000000, 0x01, 0, 0x10000000000000, 4, 1, 0, 0⟩ ∧
    outputs literalBit (cmdF 0x0B 1 1 0x10000000000000) = some ⟨0x4000000000000000, 0x01, 1, 0x10000000000000, 4, 1, 0, 0⟩ := by decide

/-! ## Distance -/

/-- TV-X32-3, TV-X32-5, TV-X32-8, TV-X32-9, TV-X32-11, TV-X32-21. -/
theorem test_dst32_finite :
    outputs dflt (cmdA 0x0C 0x00000000 0x80000000) = resultOnly 0 ∧
    outputs dflt (cmdA 0x0C 0x80000001 0x00000001) = resultOnly 2 ∧
    outputs dflt (cmdA 0x0C 0x3F800000 0x40000000) = resultOnly 0x800000 ∧
    outputs dflt (cmdA 0x0C 0xBF800000 0xC0000000) = resultOnly 0x800000 ∧
    outputs dflt (cmdA 0x0C 0x7F7FFFFF 0xFF7FFFFF) = resultOnly 0xFEFFFFFE ∧
    outputs dflt (cmdA 0x0C 0xFFFFFFFF3F800000 0x3F800001) = resultOnly 1 := by decide

/-- TV-X32-12, TV-X32-14, TV-X32-15, TV-X32-16, TV-X32-18. -/
theorem test_dst32_special :
    outputs dflt (cmdA 0x0C 0x7F7FFFFF 0x7F800000) = resultOnly 0xFFFFFFFF ∧
    outputs dflt (cmdA 0x0C 0xFF800000 0xFF800000) = resultOnly 0 ∧
    outputs dflt (cmdA 0x0C 0x7F800000 0xFF800000) = resultOnly 0xFFFFFFFF ∧
    outputs dflt (cmdA 0x0C 0x7FC00000 0x7FC00000) = resultOnly 0xFFFFFFFF ∧
    outputs dflt (cmdA 0x0C 0x7F800000 0x7F800001) = resultOnly 0xFFFFFFFF := by decide

/-- TV-X64-2, TV-X64-5, TV-X64-6, TV-X64-9. -/
theorem test_dst64_finite :
    outputs dflt (cmdA 0x0D 0x3FF0000000000000 0x3FF0000000000001) = resultOnly 1 ∧
    outputs dflt (cmdA 0x0D 0x3FF0000000000000 0x4000000000000000) = resultOnly 0x0010000000000000 ∧
    outputs dflt (cmdA 0x0D 0x7FEFFFFFFFFFFFFF 0xFFEFFFFFFFFFFFFF) = resultOnly 0xFFDFFFFFFFFFFFFE ∧
    outputs dflt (cmdA 0x0D 0x8000000000000001 0x0000000000000001) = resultOnly 2 := by decide

/-- TV-X64-3, TV-X64-7, TV-X64-8. -/
theorem test_dst64_special :
    outputs dflt (cmdA 0x0D 0x7FF8000000000000 0x3FF0000000000000) = resultOnly 0xFFFFFFFFFFFFFFFF ∧
    outputs dflt (cmdA 0x0D 0xFFF0000000000000 0xFFF0000000000000) = resultOnly 0 ∧
    outputs dflt (cmdA 0x0D 0xFFF0000000000000 0x7FF0000000000000) = resultOnly 0xFFFFFFFFFFFFFFFF := by decide

/-! ## Illegal selects, the host's actions, elaboration -/

/-- TV-IL-1, TV-IL-2. -/
theorem test_illegal_select :
    outputs dflt (cmdA 0x10 0x3F800000) = some ⟨0, 0, 0, 0, 0, 0, 0, 1⟩ ∧
    outputs dflt ⟨0x1F, 0x3F800000, 1, 1, 1, 1⟩ = some ⟨0, 0, 0, 0, 0, 0, 0, 1⟩ := by decide

/-- Program P5, steps 2 and 3: an illegal command leaves the next one's result alone (60_exceptions.md R184). -/
theorem test_illegal_leaves_next_command :
    (match step { start dflt [.present (cmdF 0x0B (-1) 1 0x14000000000000)] with out := some illegalPorts } with
      | .next t => t.out
      | .fault _ => none
      | .refused _ => none) = some ⟨0xC004000000000000, 0xFF, 0x0001, 0x14000000000000, 4, 0, 0, 0⟩ := by decide

/-- 70_reset_and_hazards.md R212: a wrong constant, or swapped instances, stops elaboration. -/
theorem test_elaboration :
    elaborate (constants .w32) (constants .w64) dflt = some State.reset ∧
    elaborate { constants .w32 with expBias := 126 } (constants .w64) dflt = none ∧
    elaborate (constants .w64) (constants .w32) dflt = none := by decide

/-! ## Witnesses: the hypotheses of each statement, met together -/

/-- A command that decodes, next in the schedule. -/
def sPresent : State := start dflt [.present (cmdA 0x08 0x3F800000), .sample]

theorem witness_DecodeOfEncode : Instr.wf dflt .f2i32 = true ∧ Instr.wf noView .f2b32 = true := by decide

theorem witness_StepRunsPresentedCommand :
    sPresent.schedule = .present (cmdA 0x08 0x3F800000) :: [.sample] ∧
    decode sPresent.params (cmdA 0x08 0x3F800000).op = .ok .dec32 ∧ Instr.wf sPresent.params .dec32 = true := by decide

theorem witness_IllegalSelectDrivesIllegalOnly :
    (start dflt [.present (cmdA 0x10 0)]).schedule = .present (cmdA 0x10 0) :: [] ∧
    decode dflt (cmdA 0x10 0).op = .error .reservedFunction ∧
    (start noView [.present (cmdA 0x07 0)]).schedule = .present (cmdA 0x07 0) :: [] ∧
    decode noView (cmdA 0x07 0).op = .error .signedViewAbsent ∧
    (start dflt [.present (cmdA 0x10 0), .present (cmdA 0x0C 1 2)]).schedule =
      .present (cmdA 0x10 0) :: .present (cmdA 0x0C 1 2) :: [] := by decide

theorem witness_ResultsAreFunctionOfCommand :
    sPresent.schedule = .present (cmdA 0x08 0x3F800000) :: [.sample] := by decide

theorem witness_StepsOfOtherHostActions :
    (start dflt []).schedule = [] ∧ (start dflt [.assertReset]).schedule = .assertReset :: [] ∧
    ((start dflt [.sample]).schedule = .sample :: [] ∧ (start dflt [.sample]).out = none) ∧
    ({ start dflt [.sample] with out := some idlePorts }.schedule = .sample :: [] ∧
      { start dflt [.sample] with out := some idlePorts }.out = some idlePorts) := by decide

theorem witness_SignedFloatToIntBitsResult :
    dflt.hasSignedView = true ∧ noView.hasSignedView = false ∧ (start dflt []).params.hasSignedView = true := by decide

theorem witness_SignedIntBitsToFloatResult :
    dflt.hasSignedView = true ∧ noView.hasSignedView = false ∧ (start dflt []).params.hasSignedView = true := by decide

theorem witness_SignedViewAbsentIsIllegal :
    Instr.isSignedView .i2f64 = true ∧ (start noView []).params.hasSignedView = false := by decide

/-- A negative pattern through `f2i32`, whose `r` is then on port `a`. -/
theorem witness_ReinterpretInverseLaws :
    ({ start dflt [] with inp := cmdA 0x04 0xBF800000 } : State).params.hasSignedView = true ∧
    ({ start dflt [] with inp := cmdA 0x06 0xFFFFFFFFBF800000 } : State).params.hasSignedView = true ∧
    outputs dflt (cmdA 0x04 0xBF800000) = resultOnly (cmdA 0x06 0xFFFFFFFFBF800000).a := by decide

/-- Each class at the ends of its range, at both widths. -/
theorem witness_DecompRangesAndInjectivity :
    (decomp .w32 0x80000000#32).cls = .zero ∧ (decomp .w32 0x00000001#32).cls = .subnormal ∧
    (decomp .w32 0x007FFFFF#32).cls = .subnormal ∧ (decomp .w32 0x00800000#32).cls = .normal ∧
    (decomp .w32 0x7F7FFFFF#32).cls = .normal ∧ (decomp .w32 0x7F800000#32).cls = .inf ∧
    (decomp .w32 0x7F800001#32).cls = .nan ∧ (decomp .w64 0xFFFFFFFFFFFFFFFF#64).cls = .nan ∧
    (decomp .w64 0x0010000000000000#64).cls = .normal ∧ (decomp .w64 0x000FFFFFFFFFFFFF#64).cls = .subnormal ∧
    (decomp .w64 0#64).cls = .zero ∧ (decomp .w64 0xFFF0000000000000#64).cls = .inf := by decide

theorem witness_FieldPortsCarryFields :
    (decomp .w32 0x7F800000#32).sign = 1 ∧ (decomp .w64 0x8000000000000000#64).sign = -1 := by decide

theorem witness_ClassCodesAreFive : evaluate dflt (cmdA 0x0E 0x00800000) = classOnly 4 := by decide

/-- Both ends of the valid exponents, and the first invalid ones on either side. -/
theorem witness_ExponentValidationSaturates :
    ((-128 : Int) < (constants .w32).expMin ∨ (constants .w32).expMaxReserved < (-128 : Int)) ∧
    ((129 : Int) < (constants .w32).expMin ∨ (constants .w32).expMaxReserved < (129 : Int)) ∧
    ((constants .w32).expMin ≤ -127 ∧ (-127 : Int) ≤ (constants .w32).expMaxReserved) ∧
    ((constants .w64).expMin ≤ 1024 ∧ (1024 : Int) ≤ (constants .w64).expMaxReserved) := by decide

theorem witness_SignAndPacking :
    dflt.hasDiag = true ∧ (recomp .w32 dflt 0 0 0x800000#32).err = false ∧ (0 : Int) ≠ 1 ∧ (0 : Int) ≠ -1 := by decide

/-- No error with the default parameters, in case (b) and in case (c). -/
theorem witness_DiagnosticExactlyThreeCases :
    dflt = Params.specDefault ∧ (recomp .w32 dflt 1 (-127) 1#32).err = false ∧
    (recomp .w64 dflt 1 1024 0#64).err = false ∧ (recomp .w64 dflt 5 0 0x10000000000000#64).err = false := by decide

theorem witness_ParametersNeverChangeThePattern :
    dflt.flagImplicitBit = noDiag.flagImplicitBit ∧ noDiag.hasDiag = false ∧
    (dflt.flagImplicitBit = false ∧ (recomp .w32 dflt 1 200 0#32).err = true) := by decide

/-- Canonical fields at `EXP_MIN`, at the least normal exponent and at the reserved one. -/
theorem witness_CodecRoundTripLaws :
    CanonicalFields .w32 1 (-127) 0xFFFFFE#32 ∧ CanonicalFields .w32 (-1) (-126) 0x800000#32 ∧
    CanonicalFields .w64 1 1024 0x1FFFFFFFFFFFFF#64 ∧ dflt.flagImplicitBit = false ∧
    literalBit.flagImplicitBit = true := by
  unfold CanonicalFields
  decide

/-- Program P1, steps 2 and 3. -/
theorem witness_DecomposeThenRecomposeReturnsPattern :
    outputs dflt (cmdA 0x08 0x3DCCCCCD) = fieldsOnly 0x01 0xFFFC 0xCCCCCD 4 ∧
    dflt.flagImplicitBit = false ∧ (cmdF 0x0A 1 (-4) 0xCCCCCD).fSign = 0x01 ∧
    (cmdF 0x0A 1 (-4) 0xCCCCCD).fExp = 0xFFFC ∧ (cmdF 0x0A 1 (-4) 0xCCCCCD).fSig = 0xCCCCCD := by decide

theorem witness_DistanceOfNanAndInfinity :
    (decomp .w32 0x7F800001#32).cls = .nan ∧
    ((decomp .w32 0x7F800000#32).cls ≠ .nan ∧ (decomp .w32 0x7F7FFFFF#32).cls ≠ .nan ∧
      (decomp .w32 0x7F800000#32).cls = .inf) := by decide

/-- The largest finite pattern beside the largest subnormal one, and zeros of both signs. -/
theorem witness_DistanceOfFiniteOperands :
    FinitePattern .w32 0x7F7FFFFF#32 ∧ FinitePattern .w32 0x807FFFFF#32 ∧ FinitePattern .w64 0x7FEFFFFFFFFFFFFF#64 ∧
    FinitePattern .w64 0x8000000000000000#64 ∧ FinitePattern .w64 0#64 := by
  unfold FinitePattern
  decide

theorem witness_DistanceNeverWraps : FinitePattern .w32 0x7F7FFFFF#32 ∧ FinitePattern .w32 0xFF7FFFFF#32 := by
  unfold FinitePattern
  decide

/-- Monotonicity on two negative patterns, and across zero (program P2, step 3). -/
theorem witness_DistanceLaws :
    (decomp .w32 0xFF800000#32).cls ≠ .nan ∧
    (FinitePattern .w32 0xBF800000#32 ∧ FinitePattern .w32 0xBF800003#32 ∧
      (0xBF800000#32).getLsbD 31 = (0xBF800003#32).getLsbD 31 ∧ (0xBF800003#32).toNat = (0xBF800000#32).toNat + 3) ∧
    (FinitePattern .w32 0x00000003#32 ∧ FinitePattern .w32 0x00000002#32 ∧ (0x00000003#32).getLsbD 31 = false ∧
      (0x00000002#32).getLsbD 31 = false) := by
  unfold FinitePattern
  decide

/-- Ports that differ in everything the operation does not read. -/
theorem witness_UnreadPortsHaveNoEffect :
    (start dflt []).params = (start dflt [.sample]).params ∧
    AgreeOnOperands .dec32 ⟨0x08, 0x123456783F800000, 1, 2, 3, 4⟩ ⟨0x08, 0x3F800000, 5, 6, 7, 8⟩ ∧
    AgreeOnOperands .rec32 ⟨0x0A, 1, 2, 3, 4, 0x100800000⟩ ⟨0x0A, 5, 6, 3, 4, 0x800000⟩ := by
  refine ⟨by decide, ?_, ?_⟩
  · change (0x123456783F800000#64).setWidth 32 = (0x3F800000#64).setWidth 32
    decide
  · change 3#8 = 3#8 ∧ 4#16 = 4#16 ∧ (0x100800000#64).setWidth 32 = (0x800000#64).setWidth 32
    decide

theorem witness_OutputsNotProducedAreZero :
    Instr.wf (start dflt []).params .f2i32 = true ∧ decode noView (cmdA 0x04 0).op = .error .signedViewAbsent := by decide

theorem witness_ResultExtensionAtWidth32 : (start dflt []).params.hasSignedView = true := by decide

/-- 60_exceptions.md R186: `f_exp = 200` with `f_sig = 0xFFFFFFFF` at W = 32. -/
theorem witness_SimultaneousConditions :
    errExponent .w32 200 = true ∧ errSignificand .w32 dflt 200 0xFFFFFFFF#32 = true := by decide

/-- For StepsKeepParameters, StepsKeepOutputsWithTheirCommand and StepsKeepOutputsLegal: a state that meets both
invariants, from which a step answers a next state with driven outputs. -/
theorem witness_steps_from_invariants :
    OutputsBelongToPorts sPresent ∧ OnlyLegalOutputs sPresent ∧ ∃ t, step sPresent = .next t ∧ t.out ≠ none :=
  ⟨.inl rfl, ⟨fun o h => by simp [sPresent, start, State.elaborated] at h,
    fun o h => by simp [sPresent, start, State.elaborated] at h⟩, _, rfl, by decide⟩

/-- A state with driven outputs and a value the host has read, about to be read again: those of program P1's step 2. -/
def sDriven : State :=
  { start dflt [.sample, .present (cmdA 0x10 0)] with
    inp := cmdA 0x08 0x3DCCCCCD
    out := fieldsOnly 0x01 0xFFFC 0xCCCCCD 4
    collected := [⟨0, 0x01, 0xFFFC, 0xCCCCCD, 4, 0, 0, 0⟩] }

/-- For StepsKeepOutputsWithTheirCommand: valid outputs that belong to the command on the ports, kept by a step. -/
theorem witness_StepsKeepOutputsWithTheirCommand_driven :
    OutputsBelongToPorts sDriven ∧ sDriven.out ≠ none ∧
    ∃ t, step sDriven = .next t ∧ t.out = sDriven.out ∧ t.collected.length = 2 :=
  ⟨.inr (by decide), by decide, _, rfl, by decide, by decide⟩

/-- For StepsKeepOutputsLegal: tuples on the ports and among the host's values that obey the rules, and a step from there. -/
theorem witness_StepsKeepOutputsLegal_driven :
    OnlyLegalOutputs sDriven ∧ sDriven.out ≠ none ∧ sDriven.collected ≠ [] ∧ ∃ t, step sDriven = .next t := by
  have legal : LegalOutputs ⟨0, 0x01, 0xFFFC, 0xCCCCCD, 4, 0, 0, 0⟩ := by
    unfold LegalOutputs
    decide
  exact ⟨⟨fun _ h => Option.some.inj h ▸ legal, fun _ h => List.mem_singleton.mp h ▸ legal⟩, by decide, by decide, _, rfl⟩

theorem witness_CommandsAreIdempotent :
    (start dflt [.present (cmdA 0x0C 1 2), .present (cmdA 0x0C 1 2)]).schedule =
      .present (cmdA 0x0C 1 2) :: .present (cmdA 0x0C 1 2) :: [] ∧
    (start dflt [.present (cmdA 0x0C 1 2), .sample]).params = (start dflt [.present (cmdA 0x0C 1 2)]).params := by decide

theorem witness_ResetHasNoVisibleEffect :
    (start dflt [.assertReset, .present (cmdA 0x0C 1 2)]).schedule = .assertReset :: .present (cmdA 0x0C 1 2) :: [] := by
  decide

theorem witness_RunOfCommandsCollectsEachOwnResult :
    (start dflt [.present (cmdA 0x0C 1 2), .sample, .present (cmdA 0x10 0), .sample, .assertReset]).schedule =
      [cmdA 0x0C 1 2, cmdA 0x10 0].flatMap (fun c => [HostAction.present c, HostAction.sample]) ++ [.assertReset] := by
  decide

end Sys2Proof.Tests
end

section
/-! SUPPORT. Proofs of the statements of 00_scope.md (R4, R8, R12 to R14): a result belongs to its command, a build changes
no pattern, and what elaboration and reset give. The facts about the shared definitions come first. -/

namespace Sys2Proof.Machine

/-! ### What the host sees on the output ports (70_reset_and_hazards.md R211) -/

/-- Valid outputs are seen as they stand. -/
theorem visibleOutputs_of_out_some {s : State} {o : OutPorts} (h : s.out = some o) : visibleOutputs s = some o := by
  unfold visibleOutputs
  rw [h]

/-- Unspecified outputs: only a combinational block shows anything. -/
theorem visibleOutputs_of_out_none {s : State} (h : s.out = none) :
    visibleOutputs s = if Config.pLatency = 0 then evaluate s.params s.inp else none := by
  unfold visibleOutputs
  rw [h]

theorem visibleOutputs_eq_none_iff (s : State) : visibleOutputs s = none ↔ s.out = none ∧ Config.pLatency ≠ 0 := by
  cases hs : s.out with
  | some o => simp [visibleOutputs_of_out_some hs]
  | none =>
    obtain ⟨o, ho⟩ := evaluate_isSome s.params s.inp
    simp [visibleOutputs_of_out_none hs, ho]

/-! ### A step, and the outputs of the command on the input ports -/

/-- A presented command always completes, whatever the outputs were before: it is captured, and its own outputs driven. -/
theorem step_present {s : State} {c : InPorts} {rest : List HostAction} (h : s.schedule = .present c :: rest) :
    ∃ o, evaluate s.params c = some o ∧ step s = .next (drive o (capture c { s with schedule := rest })) := by
  rw [step_of_schedule h]
  exact runCommand_drives (capture c { s with schedule := rest })

/-- Presenting a command gives the ports its outputs, a reset makes them unspecified, and the two other steps touch
neither the ports nor the outputs. -/
theorem step_keeps_outputsBelongToPorts {s t : State} (hs : OutputsBelongToPorts s) (h : step s = .next t) :
    OutputsBelongToPorts t := by
  obtain ⟨-, rfl⟩ | ⟨c, rest, o, -, ho, rfl⟩ | ⟨rest, o, -, -, rfl⟩ | ⟨rest, -, rfl⟩ := step_cases h
  · exact hs
  · exact .inr ho.symm
  · exact hs
  · exact .inl rfl

/-- Where the outputs belong to the ports, reading them gives the function of the ports, if it may be read at all. -/
theorem visibleOutputs_of_outputsBelongToPorts {s : State} (hs : OutputsBelongToPorts s) :
    visibleOutputs s = if s.out = none ∧ Config.pLatency ≠ 0 then none else evaluate s.params s.inp := by
  cases ho : s.out with
  | none =>
    rw [visibleOutputs_of_out_none ho]
    by_cases hl : Config.pLatency = 0 <;> simp [hl]
  | some o =>
    have hv : s.out = evaluate s.params s.inp := hs.resolve_left (by simp [ho])
    simp [visibleOutputs_of_out_some ho, ← hv, ho]

/-- Settles O42: the invariant over the four things a step can do, and what may be read where it holds. -/
theorem stepsKeepOutputsWithTheirCommand : Obligations.StepsKeepOutputsWithTheirCommand :=
  ⟨fun _ _ => step_keeps_outputsBelongToPorts, fun _ => visibleOutputs_of_outputsBelongToPorts⟩

/-- Settles O6: `step_present`, with its next state written out. -/
theorem resultsAreFunctionOfCommand : Obligations.ResultsAreFunctionOfCommand :=
  fun _ _ _ h => step_present h

/-! ### What the parameters can change in RECOMP_W (00_scope.md R13, R14) -/

/-- `err_sig` as a bound on the prepared significand (41_codec.md R131). -/
theorem errSignificand_iff_le (w : Width) (p : Params) (e : Int) (m : Pattern w) :
    errSignificand w p e m = true ↔
      2 ^ (if e = (constants w).expMin ∨ p.flagImplicitBit = true then (constants w).significandBits
        else (constants w).significandBits + 1) ≤ (preSignificand w e m).toNat := by
  refine and_not_lowMask_ne_zero _ _ _ ?_ ?_
  · split <;> cases w <;> decide
  · rw [allowedBits_toNat]
    split <;> rfl

/-- The diagnostic parameter plays no part in the error flag. -/
theorem errFlag_congr (w : Width) {p q : Params} (h : p.flagImplicitBit = q.flagImplicitBit) (e : Int) (m : Pattern w) :
    errFlag w p e m = errFlag w q e m := by
  simp only [errFlag, errSignificand, allowedBits, h]

/-- The default reading allows the most bits, so what it flags every reading flags. -/
theorem errSignificand_of_default (w : Width) {p : Params} (q : Params) (hp : p.flagImplicitBit = false) {e : Int}
    {m : Pattern w} (h : errSignificand w p e m = true) : errSignificand w q e m = true := by
  rw [errSignificand_iff_le] at h ⊢
  refine le_trans (Nat.pow_le_pow_right (by decide) ?_) h
  by_cases he : e = (constants w).expMin
  · simp [he]
  · simp only [he, hp, Bool.false_eq_true, or_self, false_or, if_false]
    split <;> omega

theorem errFlag_of_default (w : Width) {p : Params} (q : Params) (hp : p.flagImplicitBit = false) {e : Int}
    {m : Pattern w} (h : errFlag w p e m = true) : errFlag w q e m = true := by
  simp only [errFlag, Bool.or_eq_true] at h ⊢
  exact h.imp_right (errSignificand_of_default w q hp)

/-- No diagnostic is computed in a build without it (41_codec.md R134). -/
theorem diagFlag_absent {p : Params} (h : p.hasDiag = false) (err mismatch : Bool) : diagFlag p err mismatch = false := by
  simp [diagFlag, h]

/-- Settles O27: RECOMP_W hands the parameters to its two flags only, and each flag has its lemma. -/
theorem parametersNeverChangeThePattern : Obligations.ParametersNeverChangeThePattern :=
  fun w _ q _ e m => ⟨rfl, rfl, fun h => errFlag_congr w h e m, fun h => diagFlag_absent h _ _,
    fun hp => errFlag_of_default w q hp⟩

/-! ### Reset, absent operations and elaboration -/

/-- Settles O8: the fields of the state after reset, and what is visible of unspecified outputs. -/
theorem resetLeavesNoResult : Obligations.ResetLeavesNoResult :=
  ⟨rfl, rfl, rfl, rfl, rfl, rfl, (visibleOutputs_eq_none_iff State.reset).trans (and_iff_right rfl)⟩

/-- In a build without the signed view, an operation of the view is an illegal one (log entry 8). -/
theorem exec_signedView_absent {i : Instr} (hi : i.isSignedView = true) {s : State}
    (hs : s.params.hasSignedView = false) : exec i s = .next (illegal s) := by
  cases i
  case f2i32 | f2i64 | i2f32 | i2f64 => exact congrArg Host.Outcome.next (driveSignedView_absent _ hs)
  all_goals cases hi

/-- Settles O13: what `illegal` drives, written out. -/
theorem signedViewAbsentIsIllegal : Obligations.SignedViewAbsentIsIllegal :=
  fun _ _ hi hs => exec_signedView_absent hi hs

/-- The table of 00_scope.md R8 is the one its layout gives. -/
theorem constantsFromLayout_eq_constants :
    constantsFromLayout 32 8 = constants .w32 ∧ constantsFromLayout 64 11 = constants .w64 := by decide

/-- Elaboration gives the machine after reset, and it does so for the constants of the table alone. -/
theorem elaborate_eq_some_iff (narrow wide : WidthConstants) (p : Params) (s : State) :
    elaborate narrow wide p = some s ↔ narrow = constants .w32 ∧ wide = constants .w64 ∧ s = State.elaborated p := by
  obtain ⟨hn, hw⟩ := constantsFromLayout_eq_constants
  simp only [elaborate, elaborationCheck, hn, hw, Option.ite_none_right_eq_some, Bool.and_eq_true, decide_eq_true_eq,
    Option.some.injEq, and_assoc, @eq_comm _ (State.elaborated p)]

/-- Settles O48: `elaborate_eq_some_iff`, with the two columns of the table written out. -/
theorem elaborationRequiresTheTable : Obligations.ElaborationRequiresTheTable := by
  intro narrow wide p s
  rw [elaborate_eq_some_iff]
  constructor
  · rintro ⟨rfl, rfl, hs⟩
    exact ⟨rfl, rfl, rfl, rfl, hs⟩
  · rintro ⟨-, -, hn, hw, hs⟩
    exact ⟨hn.symm, hw.symm, hs⟩

end Sys2Proof.Machine
end

section
/-! SUPPORT. Proofs of the statements of 10_state.md (R33 to R43): what each operation drives onto the output ports, which
ports it reads, and what every step keeps. The facts about the shared definitions come first. -/

namespace Sys2Proof.Machine

/-! ### What an operation and a command drive (10_state.md R38) -/

/-- The row of 10_state.md R38 for a command whose one result is `r`. -/
def resultPorts (r : BitVec 64) : OutPorts := { idlePorts with r := r }

/-- What an operation of the signed view drives in a build with parameters `p` (00_scope.md R12). -/
def signedViewPorts (p : Params) (r : BitVec 64) : OutPorts :=
  if p.hasSignedView = true then resultPorts r else illegalPorts

/-- What `exec` drives, as a function of the build and the command; `exec_eq_drive` ties it to `exec`. -/
def operationPorts (i : Instr) (p : Params) (c : InPorts) : OutPorts :=
  match i with
  | .f2b32 | .b2f32 | .f2b64 | .b2f64 => resultPorts (zext64 (operandA i.width c))
  | .f2i32 | .f2i64 => signedViewPorts p (sext64 (operandA i.width c))
  | .i2f32 | .i2f64 => signedViewPorts p (zext64 (operandA i.width c))
  | .dec32 | .dec64 => fieldPorts (decomp i.width (operandA i.width c))
  | .rec32 | .rec64 => recomposedPorts
      (recomp i.width p (operandSign c) (operandExponent c) (operandSignificand i.width c))
  | .dst32 | .dst64 => resultPorts (zext64 (ulpDistance i.width (operandA i.width c) (operandB i.width c)))
  | .cls32 | .cls64 => classPorts (decomp i.width (operandA i.width c))

theorem signedViewPorts_present {p : Params} (h : p.hasSignedView = true) (r : BitVec 64) :
    signedViewPorts p r = resultPorts r := if_pos h

theorem driveSignedView_eq_drive (r : BitVec 64) (s : State) :
    driveSignedView r s = drive (signedViewPorts s.params r) s := by
  unfold driveSignedView signedViewPorts
  split <;> rfl

theorem exec_eq_drive (i : Instr) (s : State) : exec i s = .next (drive (operationPorts i s.params s.inp) s) := by
  cases i
  case f2i32 | f2i64 | i2f32 | i2f64 => exact congrArg Host.Outcome.next (driveSignedView_eq_drive _ s)
  all_goals rfl

theorem runCommand_of_decode_ok {s : State} {i : Instr} (h : decode s.params s.inp.op = .ok i) :
    runCommand s = exec i s := by
  unfold runCommand
  rw [h]

theorem evaluate_of_decode_ok {p : Params} {c : InPorts} {i : Instr} (h : decode p c.op = .ok i) :
    evaluate p c = some (operationPorts i p c) := by
  unfold evaluate
  rw [runCommand_of_decode_ok (s := capture c (State.elaborated p)) h, exec_eq_drive]
  rfl

theorem evaluate_of_decode_error {p : Params} {c : InPorts} {e : DecodeError} (h : decode p c.op = .error e) :
    evaluate p c = some illegalPorts := by
  unfold evaluate runCommand
  rw [capture_params, elaborated_params, capture_inp, h]
  rfl

/-! ### Where a select lies, and what its decoding says (30_encoding.md R72, R73) -/

/-- The rows of the table are the selects below 0x10, each encoded as itself. -/
theorem operationOf_map_encode : ∀ op : BitVec 5,
    (operationOf (functionCode op) (widthSelect op)).map encode = if op.toNat < 0x10 then some op else none := by
  decide

theorem isSignedView_iff_encode (i : Instr) :
    i.isSignedView = true ↔ 4 ≤ (encode i).toNat ∧ (encode i).toNat ≤ 7 := by
  cases i <;> decide

/-- A present operation of the signed view is in a build with the view. -/
theorem hasSignedView_of_wf {i : Instr} {p : Params} (hi : i.isSignedView = true) (h : i.wf p = true) :
    p.hasSignedView = true := by
  simpa [Instr.wf, hi] using h

theorem not_wf_iff {i : Instr} {p : Params} : ¬ i.wf p = true ↔ i.isSignedView = true ∧ p.hasSignedView = false := by
  simp [Instr.wf]

theorem decode_eq_ok {p : Params} {op : BitVec 5} {i : Instr} (h : decode p op = .ok i) :
    encode i = op ∧ op.toNat < 0x10 ∧ i.wf p = true := by
  have hrow := operationOf_map_encode op
  unfold decode at h
  split at h
  · cases h
  · rename_i j hj
    split at h
    · rename_i hwf
      cases h
      rw [hj, Option.map_some] at hrow
      split at hrow
      · rename_i hlt
        exact ⟨Option.some.inj hrow, hlt, hwf⟩
      · cases hrow
    · cases h

theorem decode_eq_error {p : Params} {op : BitVec 5} {e : DecodeError} (h : decode p op = .error e) :
    0x10 ≤ op.toNat ∨ (4 ≤ op.toNat ∧ op.toNat ≤ 7 ∧ p.hasSignedView = false) := by
  have hrow := operationOf_map_encode op
  by_cases hlt : op.toNat < 0x10
  · unfold decode at h
    rw [if_pos hlt] at hrow
    obtain ⟨j, hj, rfl⟩ := Option.map_eq_some_iff.mp hrow
    rw [hj] at h
    dsimp only at h
    split at h
    · cases h
    · rename_i hwf
      obtain ⟨hview, hp⟩ := not_wf_iff.mp hwf
      obtain ⟨h4, h7⟩ := (isSignedView_iff_encode j).mp hview
      exact .inr ⟨h4, h7, hp⟩
  · exact .inl (Nat.not_lt.mp hlt)

/-- A select that decodes lies where none of those of `decode_eq_error` do. -/
theorem not_illegalSelect_of_decode_ok {p : Params} {op : BitVec 5} {i : Instr} (h : decode p op = .ok i) :
    ¬ (0x10 ≤ op.toNat ∨ (4 ≤ op.toNat ∧ op.toNat ≤ 7 ∧ p.hasSignedView = false)) := by
  obtain ⟨rfl, hlt, hwf⟩ := decode_eq_ok h
  rintro (h16 | ⟨h4, h7, hp⟩)
  · omega
  · exact not_wf_iff.mpr ⟨(isSignedView_iff_encode i).mpr ⟨h4, h7⟩, hp⟩ hwf

/-! ### The rules of a legal output tuple (10_state.md R40, 41_codec.md R121, 60_exceptions.md R184, R186) -/

theorem classCode_le (k : FpClass) : (classCode k).toNat ≤ 4 := by
  cases k <;> decide

theorem signPort_eq_or (sign : Int) : signPort sign = 0x01#8 ∨ signPort sign = 0xFF#8 := by
  unfold signPort
  split
  · exact .inr rfl
  · exact .inl rfl

/-- `o_err` excludes `o_diag` (60_exceptions.md R186). -/
theorem recomp_diag_of_err {w : Width} {p : Params} {sign e : Int} {m : Pattern w}
    (h : (recomp w p sign e m).err = true) : (recomp w p sign e m).diag = false := by
  replace h : errFlag w p e m = true := h
  simp [recomp, diagFlag, h]

theorem legalOutputs_illegalPorts : LegalOutputs illegalPorts :=
  ⟨by decide, .inl rfl, fun _ => rfl, fun _ => rfl⟩

theorem legalOutputs_of_oIllegal_zero {o : OutPorts} (hclass : o.oClass.toNat ≤ 4)
    (hsign : o.oSign = 0x00#8 ∨ o.oSign = 0x01#8 ∨ o.oSign = 0xFF#8) (herr : o.oErr = 1 → o.oDiag = 0)
    (hill : o.oIllegal = 0) : LegalOutputs o :=
  ⟨hclass, hsign, herr, fun h => absurd (hill.symm.trans h) (by decide)⟩

theorem legalOutputs_resultPorts (r : BitVec 64) : LegalOutputs (resultPorts r) :=
  legalOutputs_of_oIllegal_zero (Nat.zero_le _) (.inl rfl) (fun _ => rfl) rfl

theorem legalOutputs_signedViewPorts (p : Params) (r : BitVec 64) : LegalOutputs (signedViewPorts p r) := by
  unfold signedViewPorts
  split
  · exact legalOutputs_resultPorts r
  · exact legalOutputs_illegalPorts

theorem legalOutputs_fieldPorts {w : Width} (d : Decomposed w) : LegalOutputs (fieldPorts d) :=
  legalOutputs_of_oIllegal_zero (classCode_le d.cls) (.inr (signPort_eq_or d.sign)) (fun _ => rfl) rfl

theorem legalOutputs_classPorts {w : Width} (d : Decomposed w) : LegalOutputs (classPorts d) :=
  legalOutputs_of_oIllegal_zero (classCode_le d.cls) (.inl rfl) (fun _ => rfl) rfl

theorem flagPort_eq_one {f : Bool} : flagPort f = 1 ↔ f = true := by
  cases f <;> decide

theorem legalOutputs_recomposedPorts (w : Width) (p : Params) (sign e : Int) (m : Pattern w) :
    LegalOutputs (recomposedPorts (recomp w p sign e m)) :=
  legalOutputs_of_oIllegal_zero (classCode_le _) (.inr (signPort_eq_or _))
    (fun h => congrArg flagPort (recomp_diag_of_err (flagPort_eq_one.mp h))) rfl

theorem legalOutputs_operationPorts (i : Instr) (p : Params) (c : InPorts) : LegalOutputs (operationPorts i p c) := by
  cases i
  case f2b32 | f2b64 | b2f32 | b2f64 | dst32 | dst64 => exact legalOutputs_resultPorts _
  case f2i32 | f2i64 | i2f32 | i2f64 => exact legalOutputs_signedViewPorts p _
  case dec32 | dec64 => exact legalOutputs_fieldPorts _
  case cls32 | cls64 => exact legalOutputs_classPorts _
  case rec32 | rec64 => exact legalOutputs_recomposedPorts _ p _ _ _

/-- Whatever a command gives is legal, whether its select decodes or not. -/
theorem legalOutputs_of_evaluate {p : Params} {c : InPorts} {o : OutPorts} (h : evaluate p c = some o) :
    LegalOutputs o := by
  cases hd : decode p c.op with
  | ok i =>
    rw [evaluate_of_decode_ok hd] at h
    exact Option.some.inj h ▸ legalOutputs_operationPorts i p c
  | error e =>
    rw [evaluate_of_decode_error hd] at h
    exact Option.some.inj h ▸ legalOutputs_illegalPorts

/-- What the host may read is legal, where the driven outputs are. -/
theorem legalOutputs_of_visible {s : State} (hout : ∀ o, s.out = some o → LegalOutputs o) {o : OutPorts}
    (h : visibleOutputs s = some o) : LegalOutputs o := by
  obtain ho | ⟨-, he⟩ := visibleOutputs_cases h
  · exact hout o ho
  · exact legalOutputs_of_evaluate he

/-- Settles O43: a presented command drives a legal tuple, and a read collects one; the other steps bring in none. -/
theorem stepsKeepOutputsLegal : Obligations.StepsKeepOutputsLegal := by
  rintro s t ⟨hout, hcol⟩ h
  obtain ⟨-, rfl⟩ | ⟨c, rest, o, -, he, rfl⟩ | ⟨rest, o, -, hv, rfl⟩ | ⟨rest, -, rfl⟩ := step_cases h
  · exact ⟨hout, hcol⟩
  · exact ⟨fun o' ho => Option.some.inj ho ▸ legalOutputs_of_evaluate he, hcol⟩
  · have hread : LegalOutputs o := legalOutputs_of_visible (s := { s with schedule := rest }) hout hv
    refine ⟨hout, fun o' ho => ?_⟩
    obtain hold | hnew := List.mem_append.mp ho
    · exact hcol o' hold
    · exact List.mem_singleton.mp hnew ▸ hread
  · exact ⟨fun o' ho => absurd ho (by simp), hcol⟩

/-! ### The field outputs (10_state.md R40) -/

theorem decomp_sign_eq (w : Width) (u : Pattern w) : (decomp w u).sign = 1 ∨ (decomp w u).sign = -1 := by
  unfold decomp
  cases signBitSet w u
  · exact .inl rfl
  · exact .inr rfl

theorem decomp_exponent_range (w : Width) (u : Pattern w) :
    (constants w).expMin ≤ (decomp w u).exponent ∧ (decomp w u).exponent ≤ (constants w).expMaxReserved := by
  have hraw : rawExponent w u < 2 ^ (constants w).expBits := by
    rw [rawExponent_eq]
    exact Nat.mod_lt _ (Nat.two_pow_pos _)
  cases w <;> simp only [decomp, constants] at * <;> omega

theorem decomp_significand_lt (w : Width) (u : Pattern w) :
    (decomp w u).significand.toNat < 2 ^ ((constants w).significandBits + 1) := by
  have hraw := rawSignificand_lt w u
  have hsig := denormalised_toNat w (decomp w u).exponent (rawSignificand w u) hraw
  rw [Nat.pow_succ]
  change (denormalised w (decomp w u).exponent (rawSignificand w u)).toNat < _
  rw [hsig]
  split <;> omega

theorem signPort_toInt {sign : Int} (h : sign = 1 ∨ sign = -1) : (signPort sign).toInt = sign := by
  obtain rfl | rfl := h <;> decide

/-- Every exponent of 16 bits reads back; those of `decompose` have at most 12. -/
theorem exponentPort_toInt {e : Int} (hlo : -2 ^ 15 ≤ e) (hhi : e < 2 ^ 15) : (exponentPort e).toInt = e := by
  unfold exponentPort
  rw [BitVec.toInt_ofInt]
  exact Int.bmod_eq_of_le (by omega) (by omega)

theorem exponentPort_decomp_toInt (w : Width) (u : Pattern w) :
    (exponentPort (decomp w u).exponent).toInt = (decomp w u).exponent := by
  obtain ⟨hlo, hhi⟩ := decomp_exponent_range w u
  refine exponentPort_toInt (le_trans ?_ hlo) (lt_of_le_of_lt hhi ?_)
  · cases w <;> decide
  · cases w <;> decide

theorem zext64_toNat {w : Width} (u : Pattern w) : (zext64 u).toNat = u.toNat := by
  refine BitVec.toNat_setWidth_of_le ?_
  cases w <;> decide

/-- Settles O17: each field read back from its port, and the ranges DECOMP_W keeps. -/
theorem fieldPortsCarryFields : Obligations.FieldPortsCarryFields := by
  intro w u
  obtain ⟨hlo, hhi⟩ := decomp_exponent_range w u
  refine ⟨fun h => congrArg signPort h, fun h => congrArg signPort h, ?_, signPort_toInt (decomp_sign_eq w u),
    exponentPort_decomp_toInt w u, hlo, hhi, zext64_toNat _, decomp_significand_lt w u⟩
  obtain h | h := signPort_eq_or (decomp w u).sign
  · exact fun h0 => absurd (h.symm.trans h0) (by decide)
  · exact fun h0 => absurd (h.symm.trans h0) (by decide)

/-! ### The ports an operation reads (10_state.md R36, 30_encoding.md R75) -/

/-- What an operation drives depends on the operand bits it reads alone. -/
theorem operationPorts_congr {i : Instr} (p : Params) {c d : InPorts} (h : AgreeOnOperands i c d) :
    operationPorts i p c = operationPorts i p d := by
  cases i <;> simp only [AgreeOnOperands] at h
  case dst32 | dst64 =>
    obtain ⟨ha, hb⟩ := h
    simp only [operationPorts, Instr.width, operandA, operandB, ha, hb]
  case rec32 | rec64 =>
    obtain ⟨hsign, hexp, hsig⟩ := h
    simp only [operationPorts, Instr.width, operandSign, operandExponent, operandSignificand, hsign, hexp, hsig]
  all_goals simp only [operationPorts, Instr.width, operandA, h]

/-- Settles O35: `exec_eq_drive` on both states, whose operations drive the same tuple. -/
theorem unreadPortsHaveNoEffect : Obligations.UnreadPortsHaveNoEffect := by
  intro i s t hp h
  refine ⟨operationPorts i s.params s.inp, exec_eq_drive i s, ?_⟩
  rw [operationPorts_congr s.params h, hp]
  exact exec_eq_drive i t

/-! ### The outputs a function produces (10_state.md R38, R41, R42) -/

/-- A present operation of the signed view has `r` as its one result. -/
theorem operationPorts_signedView {i : Instr} {p : Params} (c : InPorts) (hi : i.isSignedView = true)
    (hwf : i.wf p = true) : operationPorts i p c = resultPorts (operationPorts i p c).r := by
  have hview := hasSignedView_of_wf hi hwf
  cases i
  case f2i32 | f2i64 | i2f32 | i2f64 =>
    simp only [operationPorts, signedViewPorts_present hview]
    rfl
  all_goals cases hi

/-- Settles O36: the tuple of each operation, and that of an illegal select. -/
theorem outputsNotProducedAreZero : Obligations.OutputsNotProducedAreZero := by
  refine ⟨fun i s hwf => ⟨operationPorts i s.params s.inp, exec_eq_drive i s, ?_⟩,
    fun p c e h => evaluate_of_decode_error h⟩
  cases i
  case f2i32 | f2i64 | i2f32 | i2f64 => exact operationPorts_signedView s.inp rfl hwf
  case dec32 | dec64 => exact ⟨rfl, rfl, rfl, rfl⟩
  all_goals rfl

theorem setWidth_zext64 (u : Pattern .w32) : (zext64 u).setWidth 32 = u := by
  unfold zext64
  rw [BitVec.setWidth_setWidth_of_le u (by decide)]
  exact BitVec.setWidth_eq u

/-- The low bits of a sign extension are the extended value's. -/
theorem setWidth_signExtend {m n : Nat} (h : m ≤ n) (v : BitVec m) : (v.signExtend n).setWidth m = v := by
  refine BitVec.eq_of_getLsbD_eq fun k hk => ?_
  rw [BitVec.getLsbD_setWidth, BitVec.getLsbD_signExtend]
  simp [hk, Nat.lt_of_lt_of_le hk h]

theorem setWidth_sext64 (u : Pattern .w32) : (sext64 u).setWidth 32 = u :=
  setWidth_signExtend (by decide) u

theorem zext64_fills (u : Pattern .w32) : zext64 u = ((zext64 u).setWidth 32).setWidth 64 :=
  (congrArg (BitVec.setWidth 64) (setWidth_zext64 u)).symm

theorem sext64_fills (u : Pattern .w32) : sext64 u = ((sext64 u).setWidth 32).signExtend 64 :=
  (congrArg (BitVec.signExtend 64) (setWidth_sext64 u)).symm

/-- Settles O37: the five results go through `zext64`, and that of `f2i32` through `sext64`. -/
theorem resultExtensionAtWidth32 : Obligations.ResultExtensionAtWidth32 := by
  intro s hview
  refine ⟨fun i hi => ⟨operationPorts i s.params s.inp, exec_eq_drive i s, ?_⟩,
    operationPorts .f2i32 s.params s.inp, exec_eq_drive .f2i32 s, ?_⟩
  · obtain rfl | rfl | rfl | rfl | rfl := hi
    case inr.inr.inl =>
      simp only [operationPorts, signedViewPorts_present hview]
      exact zext64_fills _
    all_goals exact zext64_fills _
  · simp only [operationPorts, signedViewPorts_present hview]
    exact sext64_fills _

theorem operationPorts_oIllegal {i : Instr} {p : Params} (c : InPorts) (hwf : i.wf p = true) :
    (operationPorts i p c).oIllegal = 0 := by
  cases i
  case f2i32 | f2i64 | i2f32 | i2f64 => exact congrArg OutPorts.oIllegal (operationPorts_signedView c rfl hwf)
  all_goals rfl

/-- Only recompose drives `o_err` and `o_diag`. -/
theorem operationPorts_flags {i : Instr} (p : Params) (c : InPorts) (h32 : i ≠ .rec32) (h64 : i ≠ .rec64) :
    (operationPorts i p c).oErr = 0 ∧ (operationPorts i p c).oDiag = 0 := by
  cases i
  case rec32 => exact absurd rfl h32
  case rec64 => exact absurd rfl h64
  case f2i32 | f2i64 | i2f32 | i2f64 =>
    simp only [operationPorts, signedViewPorts]
    split <;> exact ⟨rfl, rfl⟩
  all_goals exact ⟨rfl, rfl⟩

theorem recompose_of_flag {i : Instr} {p : Params} {c : InPorts}
    (h : (operationPorts i p c).oErr = 1 ∨ (operationPorts i p c).oDiag = 1) : i = .rec32 ∨ i = .rec64 := by
  by_contra hrec
  obtain ⟨h32, h64⟩ := not_or.mp hrec
  obtain ⟨herr, hdiag⟩ := operationPorts_flags p c h32 h64
  rw [herr, hdiag] at h
  exact absurd h (by decide)

/-- Settles O38: a select that decodes drives the flags of its operation, any other `o_illegal` alone. -/
theorem flagsHaveOneOrigin : Obligations.FlagsHaveOneOrigin := by
  intro p c
  cases hd : decode p c.op with
  | ok i =>
    obtain ⟨henc, -, hwf⟩ := decode_eq_ok hd
    have hsel : ∀ {j : Instr}, i = j → c.op = encode j := fun hj => hj ▸ henc.symm
    have hill := operationPorts_oIllegal c hwf
    refine ⟨operationPorts i p c, evaluate_of_decode_ok hd, fun h => ?_, fun h => ?_, ?_⟩
    · exact (recompose_of_flag (.inl h)).imp hsel hsel
    · exact (recompose_of_flag (.inr h)).imp hsel hsel
    · exact iff_of_false (fun h => absurd (hill.symm.trans h) (by decide)) (not_illegalSelect_of_decode_ok hd)
  | error e =>
    exact ⟨illegalPorts, evaluate_of_decode_error hd, fun h => absurd h (by decide), fun h => absurd h (by decide),
      iff_of_true rfl (decode_eq_error hd)⟩

/-! ### The step, the configuration and reset (10_state.md R33, R34, R43) -/

/-- Settles O4: the presented command is captured, and then run by its select. -/
theorem stepRunsPresentedCommand : Obligations.StepRunsPresentedCommand :=
  fun s c rest _ hs hd _ =>
    (step_of_schedule hs).trans (runCommand_of_decode_ok (s := capture c { s with schedule := rest }) hd)

/-- Settles O41: none of the four things a step can do writes the parameters. -/
theorem stepsKeepParameters : Obligations.StepsKeepParameters := by
  intro s t h
  obtain ⟨-, rfl⟩ | ⟨_, _, _, -, -, rfl⟩ | ⟨_, _, -, -, rfl⟩ | ⟨_, -, rfl⟩ := step_cases h
  all_goals rfl

/-- After reset no output is driven and no value is collected, so both invariants hold of nothing. -/
theorem elaborated_onlyLegalOutputs (p : Params) : OnlyLegalOutputs (State.elaborated p) := by
  unfold OnlyLegalOutputs
  simp

/-- Settles O44: the elaborated machine has neither driven outputs nor collected values. -/
theorem resetMeetsBothInvariants : Obligations.ResetMeetsBothInvariants :=
  fun p => ⟨.inl (elaborated_out p), elaborated_onlyLegalOutputs p, rfl⟩

end Sys2Proof.Machine
end

section
/-! SUPPORT. Proofs of the statements of 20_memory.md (R58, R59): commands are idempotent, and in a run of commands each
keeps its own results. -/

namespace Sys2Proof.Machine

/-! ### Steps that present a command and read it back -/

/-- Presenting a command whose outputs are known: no field of the state but its parameters chooses them. -/
theorem step_present_of_evaluate {s : State} {c : InPorts} {o : OutPorts} {rest : List HostAction}
    (hs : s.schedule = .present c :: rest) (he : evaluate s.params c = some o) :
    step s = .next (drive o (capture c { s with schedule := rest })) := by
  obtain ⟨o', he', hstep⟩ := step_present hs
  cases he.symm.trans he'
  exact hstep

/-- Reading valid outputs keeps them as the host's latest value. -/
theorem step_sample_of_out_some {s : State} {o : OutPorts} {rest : List HostAction}
    (hs : s.schedule = .sample :: rest) (ho : s.out = some o) :
    step s = .next (collect o { s with schedule := rest }) := by
  rw [step_of_schedule hs]
  simp only [runAction, sampleOutputs, visibleOutputs_of_out_some (s := { s with schedule := rest }) ho]

/-- Two steps of a run: a command is presented and its own outputs are read, whatever the ports held before. -/
theorem run_present_sample {s : State} {c : InPorts} {o : OutPorts} {rest : List HostAction} (k : Nat)
    (hs : s.schedule = .present c :: .sample :: rest) (he : evaluate s.params c = some o) :
    core.run (k + 2) s = core.run k (collect o (drive o (capture c { s with schedule := rest }))) := by
  have hread := step_sample_of_out_some (s := drive o (capture c { s with schedule := .sample :: rest })) rfl rfl
  exact (run_succ core (k + 1) (step_present_of_evaluate hs he)).trans (run_succ core k hread)

/-! ### The statements -/

/-- Settles O45: each presentation gives `evaluate` of the command, which reads no field of the state but the parameters,
and a step keeps those. -/
theorem commandsAreIdempotent : Obligations.CommandsAreIdempotent := by
  refine ⟨fun s c rest hs => ?_, fun s t c rest rest' hp hs ht => ?_⟩
  · obtain ⟨o, he, hstep⟩ := step_present hs
    exact ⟨_, _, o, hstep, step_present_of_evaluate rfl he, rfl, rfl, rfl⟩
  · obtain ⟨o, he, hstep⟩ := step_present hs
    exact ⟨o, hstep, step_present_of_evaluate ht (hp ▸ he)⟩

/-- Settles O47: by induction on the commands, from any state; each adds its own outputs to the host's values and keeps the
parameters the rest of the run is evaluated in. -/
theorem runOfCommandsCollectsEachOwnResult : Obligations.RunOfCommandsCollectsEachOwnResult := by
  intro cs
  induction cs with
  | nil => exact fun s rest hs => ⟨s, [], rfl, .nil, (List.append_nil _).symm, hs, rfl⟩
  | cons c cs ih =>
    intro s rest hs
    obtain ⟨o, he⟩ := evaluate_isSome s.params c
    obtain ⟨t, os, hrun, hos, hcol, hsched, hparams⟩ :=
      ih (collect o (drive o (capture c { s with schedule := cs.flatMap (fun c => [.present c, .sample]) ++ rest }))) rest rfl
    refine ⟨t, o :: os, (run_present_sample (2 * cs.length) hs he).trans hrun, .cons he hos, ?_, hsched, hparams⟩
    simpa using hcol

end Sys2Proof.Machine
end

section
/-! SUPPORT. Proofs of the statements of 30_encoding.md (R70 to R74): the encoder is a right inverse of the table, and each
select ends decoding in exactly one way. -/

namespace Sys2Proof.Machine

/-! ### The table read from an encoding (30_encoding.md R72) -/

/-- The table gives each operation at its own select. -/
@[simp] theorem operationOf_encode (i : Instr) :
    operationOf (functionCode (encode i)) (widthSelect (encode i)) = some i := by
  cases i <;> rfl

theorem encode_injective : Function.Injective encode := by
  intro i j h
  have hrow : operationOf (functionCode (encode i)) (widthSelect (encode i)) = some j := by rw [h, operationOf_encode]
  exact Option.some.inj ((operationOf_encode i).symm.trans hrow)

theorem exists_encode_eq {op : BitVec 5} (h : op.toNat < 0x10) : ∃ i, encode i = op := by
  have hrow := operationOf_map_encode op
  rw [if_pos h] at hrow
  obtain ⟨i, -, henc⟩ := Option.map_eq_some_iff.mp hrow
  exact ⟨i, henc⟩

/-! ### The three ends of decoding (30_encoding.md R73) -/

/-- On the select of an operation, only the build decides how decoding ends. -/
theorem decode_encode (p : Params) (i : Instr) :
    decode p (encode i) = if i.wf p = true then .ok i else .error .signedViewAbsent := by
  simp only [decode, operationOf_encode]

theorem decode_encode_of_wf {p : Params} {i : Instr} (h : i.wf p = true) : decode p (encode i) = .ok i :=
  (decode_encode p i).trans (if_pos h)

theorem decode_reserved {op : BitVec 5} (p : Params) (h : 0x10 ≤ op.toNat) :
    decode p op = .error .reservedFunction := by
  have hrow := operationOf_map_encode op
  rw [if_neg (Nat.not_lt.mpr h), Option.map_eq_none_iff] at hrow
  simp only [decode, hrow]

theorem decode_eq_ok_iff {p : Params} {op : BitVec 5} {i : Instr} :
    decode p op = .ok i ↔ encode i = op ∧ i.wf p = true := by
  constructor
  · intro h
    obtain ⟨henc, -, hwf⟩ := decode_eq_ok h
    exact ⟨henc, hwf⟩
  · rintro ⟨rfl, hwf⟩
    exact decode_encode_of_wf hwf

theorem decode_eq_reservedFunction_iff {p : Params} {op : BitVec 5} :
    decode p op = .error .reservedFunction ↔ 0x10 ≤ op.toNat := by
  refine ⟨fun h => ?_, decode_reserved p⟩
  by_contra hlt
  obtain ⟨i, rfl⟩ := exists_encode_eq (Nat.not_le.mp hlt)
  rw [decode_encode] at h
  split at h <;> cases h

theorem decode_eq_signedViewAbsent_iff {p : Params} {op : BitVec 5} :
    decode p op = .error .signedViewAbsent ↔ 4 ≤ op.toNat ∧ op.toNat ≤ 7 ∧ p.hasSignedView = false := by
  constructor
  · intro h
    obtain h16 | habsent := decode_eq_error h
    · cases (decode_reserved p h16).symm.trans h
    · exact habsent
  · rintro ⟨h4, h7, hp⟩
    obtain ⟨i, rfl⟩ := exists_encode_eq (Nat.lt_of_le_of_lt h7 (by decide))
    have hview : i.isSignedView = true := (isSignedView_iff_encode i).mpr ⟨h4, h7⟩
    exact (decode_encode p i).trans (if_neg (not_wf_iff.mpr ⟨hview, hp⟩))

/-! ### The statements -/

/-- Settles O3: the table gives each operation at its own select, so the encoder is injective. -/
theorem decodeOfEncode : Obligations.DecodeOfEncode :=
  fun _ _ hwf => ⟨decode_encode_of_wf hwf, fun _ h => encode_injective h⟩

/-- Settles O2: the three ends of decoding, each with the selects and builds that have it. -/
theorem decoderIsTotalAndExact : Obligations.DecoderIsTotalAndExact :=
  fun _ _ => ⟨fun _ => decode_eq_ok_iff, decode_eq_reservedFunction_iff, decode_eq_signedViewAbsent_iff⟩

/-- Settles O1: each word is the encoding of its row, whose operation the default build has; the last two are reserved. -/
theorem wordsDecodeToTheirOperations : Obligations.WordsDecodeToTheirOperations :=
  ⟨decode_encode_of_wf (i := .f2b32) rfl, decode_encode_of_wf (i := .b2f64) rfl,
    decode_encode_of_wf (i := .f2i32) rfl, decode_encode_of_wf (i := .i2f64) rfl,
    decode_encode_of_wf (i := .dec64) rfl, decode_encode_of_wf (i := .rec32) rfl,
    decode_encode_of_wf (i := .dst64) rfl, decode_encode_of_wf (i := .cls32) rfl,
    decode_reserved _ (by decide), decode_reserved _ (by decide)⟩

end Sys2Proof.Machine
end

section
/-! SUPPORT. Proofs of the statements of 40_reinterpret.md (R101 to R109): a reinterpretation gives its operand extended to
the port, so the low W bits of its result are the pattern it was given. -/

namespace Sys2Proof.Machine

/-! ### The result of a reinterpretation (40_reinterpret.md R101 to R108) -/

/-- What a reinterpretation puts on `r`: its operand, sign-extended for a signed integer and zero-extended otherwise.
`exec_reinterpretation` ties it to `exec`. -/
def reinterpreted (i : Instr) (c : InPorts) : BitVec 64 :=
  if i = .f2i32 ∨ i = .f2i64 then sext64 (operandA i.width c) else zext64 (operandA i.width c)

/-- The operations of functions 0 to 3, where the build has them, drive their one result and touch nothing else. -/
theorem exec_reinterpretation {i : Instr} {s : State} (hi : (encode i).toNat < 8) (hwf : i.wf s.params = true) :
    exec i s = .next (drive (resultPorts (reinterpreted i s.inp)) s) := by
  rw [exec_eq_drive]
  cases i
  case f2b32 | f2b64 | b2f32 | b2f64 => rfl
  case f2i32 | f2i64 | i2f32 | i2f64 =>
    simp only [operationPorts, signedViewPorts_present (hasSignedView_of_wf rfl hwf)]
    rfl
  all_goals exact absurd hi (by decide)

/-- At W = 64 the operand fills the port, and zero extension adds nothing. -/
theorem zext64_operandA_w64 (c : InPorts) : zext64 (operandA .w64 c) = c.a :=
  (BitVec.setWidth_eq _).trans (BitVec.setWidth_eq _)

/-- At W = 64 the operand fills the port, and sign extension adds nothing. -/
theorem sext64_operandA_w64 (c : InPorts) : sext64 (operandA .w64 c) = c.a :=
  (BitVec.signExtend_eq _).trans (BitVec.setWidth_eq _)

/-- A signed-view build has every operation. -/
theorem wf_of_hasSignedView {p : Params} (i : Instr) (h : p.hasSignedView = true) : i.wf p = true := by
  simp [Instr.wf, h]

theorem decode_encode_absent {p : Params} {i : Instr} (hi : i.isSignedView = true) (hp : p.hasSignedView = false) :
    decode p (encode i) = .error .signedViewAbsent :=
  (decode_encode p i).trans (if_neg (not_wf_iff.mpr ⟨hi, hp⟩))

/-! ### The low W bits of a result (40_reinterpret.md R109) -/

theorem bits_le_64 (w : Width) : w.bits ≤ 64 := by
  cases w <;> decide

/-- Either extension keeps the operand's bits in place. -/
theorem setWidth_reinterpreted (i : Instr) (c : InPorts) :
    (reinterpreted i c).setWidth i.width.bits = operandA i.width c := by
  have hle := bits_le_64 i.width
  unfold reinterpreted
  split
  · exact setWidth_signExtend hle _
  · exact (BitVec.setWidth_setWidth_of_le _ hle).trans (BitVec.setWidth_eq _)

/-- A reinterpretation of the result of another at the same width has the first one's operand in its low W bits. -/
theorem setWidth_reinterpreted_reinterpreted {i j : Instr} {c d : InPorts} (hw : j.width = i.width)
    (ha : d.a = reinterpreted i c) :
    (reinterpreted j d).setWidth i.width.bits = operandA i.width c := by
  calc (reinterpreted j d).setWidth i.width.bits
      = operandA i.width d := hw ▸ setWidth_reinterpreted j d
    _ = (reinterpreted i c).setWidth i.width.bits := congrArg (BitVec.setWidth _) ha
    _ = operandA i.width c := setWidth_reinterpreted i c

/-- Any reinterpretation returns the pattern that another of its width was given: which two makes no difference. -/
theorem exec_reinterpretation_inverse {i j : Instr} (hi : (encode i).toNat < 8) (hj : (encode j).toNat < 8)
    (hw : j.width = i.width) (s : State) (hs : s.params.hasSignedView = true) :
    ∃ o, exec i s = .next { s with out := some o } ∧
      ∀ t : State, t.params.hasSignedView = true → t.inp.a = o.r →
        ∃ o', exec j t = .next { t with out := some o' } ∧
          o'.r.setWidth i.width.bits = s.inp.a.setWidth i.width.bits :=
  ⟨_, exec_reinterpretation hi (wf_of_hasSignedView i hs), fun _ ht ha =>
    ⟨_, exec_reinterpretation hj (wf_of_hasSignedView j ht), setWidth_reinterpreted_reinterpreted hw ha⟩⟩

/-! ### The statements -/

/-- Settles O14: each pair is two reinterpretations of one width. -/
theorem reinterpretInverseLaws : Obligations.ReinterpretInverseLaws :=
  ⟨exec_reinterpretation_inverse (i := .f2b32) (j := .b2f32) (by decide) (by decide) rfl,
    exec_reinterpretation_inverse (i := .b2f32) (j := .f2b32) (by decide) (by decide) rfl,
    exec_reinterpretation_inverse (i := .f2i32) (j := .i2f32) (by decide) (by decide) rfl,
    exec_reinterpretation_inverse (i := .f2b64) (j := .b2f64) (by decide) (by decide) rfl,
    exec_reinterpretation_inverse (i := .b2f64) (j := .f2b64) (by decide) (by decide) rfl,
    exec_reinterpretation_inverse (i := .f2i64) (j := .i2f64) (by decide) (by decide) rfl⟩

/-- Settles O9: no build leaves the two out, and at W = 64 the extension adds nothing. -/
theorem floatToBitsResult : Obligations.FloatToBitsResult := by
  refine ⟨fun p => ⟨decode_encode_of_wf (i := .f2b32) rfl, decode_encode_of_wf (i := .f2b64) rfl⟩, fun s => ⟨?_, ?_⟩⟩
  · exact exec_reinterpretation (by decide) rfl
  · rw [← zext64_operandA_w64 s.inp]
    exact exec_reinterpretation (by decide) rfl

/-- Settles O10: no build leaves the two out, and at W = 64 the extension adds nothing. -/
theorem bitsToFloatResult : Obligations.BitsToFloatResult := by
  refine ⟨fun p => ⟨decode_encode_of_wf (i := .b2f32) rfl, decode_encode_of_wf (i := .b2f64) rfl⟩, fun s => ⟨?_, ?_⟩⟩
  · exact exec_reinterpretation (by decide) rfl
  · rw [← zext64_operandA_w64 s.inp]
    exact exec_reinterpretation (by decide) rfl

/-- Settles O11: the build decides presence, and the operand is sign-extended, which adds nothing at W = 64. -/
theorem signedFloatToIntBitsResult : Obligations.SignedFloatToIntBitsResult := by
  refine ⟨fun p hp => ?_, fun p hp => ?_, fun s hs => ⟨?_, ?_⟩⟩
  · exact ⟨decode_encode_of_wf (wf_of_hasSignedView .f2i32 hp), decode_encode_of_wf (wf_of_hasSignedView .f2i64 hp)⟩
  · exact ⟨decode_encode_absent (i := .f2i32) rfl hp, decode_encode_absent (i := .f2i64) rfl hp⟩
  · exact exec_reinterpretation (by decide) (wf_of_hasSignedView _ hs)
  · rw [← sext64_operandA_w64 s.inp]
    exact exec_reinterpretation (by decide) (wf_of_hasSignedView _ hs)

/-- Settles O12: the build decides presence, and the operand is zero-extended, which adds nothing at W = 64. -/
theorem signedIntBitsToFloatResult : Obligations.SignedIntBitsToFloatResult := by
  refine ⟨fun p hp => ?_, fun p hp => ?_, fun s hs => ⟨?_, ?_⟩⟩
  · exact ⟨decode_encode_of_wf (wf_of_hasSignedView .i2f32 hp), decode_encode_of_wf (wf_of_hasSignedView .i2f64 hp)⟩
  · exact ⟨decode_encode_absent (i := .i2f32) rfl hp, decode_encode_absent (i := .i2f64) rfl hp⟩
  · exact exec_reinterpretation (by decide) (wf_of_hasSignedView _ hs)
  · rw [← zext64_operandA_w64 s.inp]
    exact exec_reinterpretation (by decide) (wf_of_hasSignedView _ hs)

end Sys2Proof.Machine
end

section
/-! SUPPORT. Proofs of the statements of 41_codec.md (R121 to R137): DECOMP_W and RECOMP_W in terms of the three raw fields
of a pattern, and the operations that drive their results. The facts about the raw fields come first. -/

namespace Sys2Proof.Machine

/-! ### The constants of one column among each other (00_scope.md R8) -/

theorem expMin_eq (w : Width) : (constants w).expMin = -(constants w).expBias := by
  cases w <;> rfl

theorem expMaxReserved_eq (w : Width) :
    (constants w).expMaxReserved = ((constants w).rawExpReserved : Int) - (constants w).expBias := by
  cases w <;> rfl

theorem rawExpReserved_pos (w : Width) : 0 < (constants w).rawExpReserved := by
  cases w <;> decide

theorem rawExpReserved_succ (w : Width) : (constants w).rawExpReserved + 1 = 2 ^ (constants w).expBits := by
  cases w <;> rfl

theorem rawExpMaxValid_succ (w : Width) : (constants w).rawExpMaxValid + 1 = (constants w).rawExpReserved := by
  cases w <;> rfl

theorem expNormalMin_eq (w : Width) : (constants w).expNormalMin = 1 - (constants w).expBias := by
  cases w <;> rfl

theorem expMax_eq (w : Width) :
    (constants w).expMax = ((constants w).rawExpMaxValid : Int) - (constants w).expBias := by
  cases w <;> rfl

theorem implicitBit_eq (w : Width) : (constants w).implicitBit = 2 ^ (constants w).significandBits := by
  cases w <;> rfl

/-! ### A pattern is its three raw fields (20_memory.md R53) -/

theorem rawExponent_le (w : Width) (u : Pattern w) : rawExponent w u ≤ (constants w).rawExpReserved := by
  have hlt : rawExponent w u < 2 ^ (constants w).expBits := rawExponent_eq w u ▸ Nat.mod_lt _ (Nat.two_pow_pos _)
  have := rawExpReserved_succ w
  omega

theorem toNat_eq_rawFields (w : Width) (u : Pattern w) :
    u.toNat = (if signBitSet w u = true then 1 else 0) * 2 ^ (w.bits - 1) +
      rawExponent w u * 2 ^ (constants w).significandBits + (rawSignificand w u).toNat := by
  have hlt := u.isLt
  rw [if_congr (signBitSet_iff_le w u) rfl rfl, rawExponent_eq, rawSignificand_toNat]
  cases w <;> simp only [constants, Width.bits] at * <;> split <;> omega

theorem eq_of_rawFields_eq {w : Width} {u v : Pattern w} (hs : signBitSet w u = signBitSet w v)
    (he : rawExponent w u = rawExponent w v) (hm : (rawSignificand w u).toNat = (rawSignificand w v).toNat) : u = v := by
  apply BitVec.eq_of_toNat_eq
  rw [toNat_eq_rawFields w u, toNat_eq_rawFields w v, hs, he, hm]

/-! ### DECOMP_W by the raw fields (41_codec.md R122, R123) -/

theorem decomp_sign (w : Width) (u : Pattern w) : (decomp w u).sign = if signBitSet w u = true then -1 else 1 := rfl

theorem decomp_exponent (w : Width) (u : Pattern w) :
    (decomp w u).exponent = (rawExponent w u : Int) - (constants w).expBias := rfl

theorem decomp_exponent_eq_expMin_iff (w : Width) (u : Pattern w) :
    (decomp w u).exponent = (constants w).expMin ↔ rawExponent w u = 0 := by
  have := expMin_eq w
  rw [decomp_exponent]
  omega

theorem decomp_exponent_eq_expMaxReserved_iff (w : Width) (u : Pattern w) :
    (decomp w u).exponent = (constants w).expMaxReserved ↔ rawExponent w u = (constants w).rawExpReserved := by
  have := expMaxReserved_eq w
  rw [decomp_exponent]
  omega

theorem decomp_significand_toNat (w : Width) (u : Pattern w) :
    (decomp w u).significand.toNat =
      if rawExponent w u = 0 then 2 * (rawSignificand w u).toNat
      else (rawSignificand w u).toNat + 2 ^ (constants w).significandBits := by
  rw [← if_congr (decomp_exponent_eq_expMin_iff w u) rfl rfl]
  exact denormalised_toNat w (decomp w u).exponent _ (rawSignificand_lt w u)

theorem decomp_cls (w : Width) (u : Pattern w) :
    (decomp w u).cls =
      if rawExponent w u = (constants w).rawExpReserved then
        (if (rawSignificand w u).toNat ≠ 0 then .nan else .inf)
      else if rawExponent w u = 0 then (if (rawSignificand w u).toNat = 0 then .zero else .subnormal)
      else .normal := by
  have hzero : rawSignificand w u = 0 ↔ (rawSignificand w u).toNat = 0 := by simp [← BitVec.toNat_inj]
  rw [← if_congr (decomp_exponent_eq_expMaxReserved_iff w u) rfl rfl,
    ← if_congr (decomp_exponent_eq_expMin_iff w u) rfl rfl, ← if_congr hzero rfl rfl,
    ← if_congr (not_congr hzero) rfl rfl]
  rfl

/-- The raw exponents and raw significands of a class (41_codec.md R124); `decomp_cls_eq_iff` ties it to DECOMP_W. -/
def RawFieldsOfClass (w : Width) (k : FpClass) (rawExp rawSig : Nat) : Prop :=
  match k with
  | .nan => rawExp = (constants w).rawExpReserved ∧ rawSig ≠ 0
  | .inf => rawExp = (constants w).rawExpReserved ∧ rawSig = 0
  | .zero => rawExp = 0 ∧ rawSig = 0
  | .subnormal => rawExp = 0 ∧ rawSig ≠ 0
  | .normal => rawExp ≠ 0 ∧ rawExp ≠ (constants w).rawExpReserved

theorem decomp_cls_eq_iff (w : Width) (u : Pattern w) (k : FpClass) :
    (decomp w u).cls = k ↔ RawFieldsOfClass w k (rawExponent w u) (rawSignificand w u).toNat := by
  have hne := (rawExpReserved_pos w).ne'
  rw [decomp_cls]
  by_cases hres : rawExponent w u = (constants w).rawExpReserved
  · by_cases hsig : (rawSignificand w u).toNat = 0 <;> cases k <;> simp [RawFieldsOfClass, hres, hsig, hne]
  · by_cases hexp : rawExponent w u = 0
    · by_cases hsig : (rawSignificand w u).toNat = 0 <;> cases k <;> simp [RawFieldsOfClass, hexp, hsig, hne.symm]
    · cases k <;> simp [RawFieldsOfClass, hres, hexp]

/-! ### RECOMP_W by the raw fields of the packed pattern (41_codec.md R129 to R132) -/

@[simp] theorem recomp_u (w : Width) (p : Params) (s e : Int) (m : Pattern w) :
    (recomp w p s e m).u = packed w s e m := rfl

theorem errExponent_iff (w : Width) (e : Int) :
    errExponent w e = true ↔ e < (constants w).expMin ∨ (constants w).expMaxReserved < e := by
  simp [errExponent]

theorem errExponent_eq_false_iff (w : Width) (e : Int) :
    errExponent w e = false ↔ (constants w).expMin ≤ e ∧ e ≤ (constants w).expMaxReserved := by
  simp [errExponent]

/-- The bound on the significand itself: at `EXP_MIN` the halving makes room for one more bit. -/
theorem errSignificand_iff (w : Width) (p : Params) (e : Int) (m : Pattern w) :
    errSignificand w p e m = true ↔
      if e = (constants w).expMin ∨ p.flagImplicitBit = false then 2 ^ ((constants w).significandBits + 1) ≤ m.toNat
      else 2 ^ (constants w).significandBits ≤ m.toNat := by
  rw [errSignificand_iff_le, preSignificand_toNat]
  by_cases he : e = (constants w).expMin
  · simp only [he, true_or, if_true]
    omega
  · cases p.flagImplicitBit <;> simp [he]

theorem errFlag_iff (w : Width) (p : Params) (e : Int) (m : Pattern w) :
    errFlag w p e m = true ↔ errExponent w e = true ∨ errSignificand w p e m = true :=
  Bool.or_eq_true_iff

theorem errFlag_eq_false_iff (w : Width) (p : Params) (e : Int) (m : Pattern w) :
    errFlag w p e m = false ↔ errExponent w e = false ∧ errSignificand w p e m = false :=
  Bool.or_eq_false_iff

theorem packedExponent_eq (w : Width) (e : Int) :
    packedExponent w e =
      if e < (constants w).expMin ∨ (constants w).expMaxReserved < e then (constants w).rawExpReserved
      else (e + (constants w).expBias).toNat :=
  if_congr (errExponent_iff w e) rfl rfl

theorem packedExponent_of_error {w : Width} {e : Int} (h : errExponent w e = true) :
    packedExponent w e = (constants w).rawExpReserved := if_pos h

theorem packedExponent_of_valid {w : Width} {e : Int} (h : errExponent w e = false) :
    (packedExponent w e : Int) = e + (constants w).expBias := by
  have hmin := expMin_eq w
  obtain ⟨hlo, -⟩ := (errExponent_eq_false_iff w e).mp h
  have hpacked : packedExponent w e = (e + (constants w).expBias).toNat := if_neg (by simp [h])
  omega

/-- The three raw fields of the packed pattern are the three values that were packed. -/
theorem rawFields_packed (w : Width) (s e : Int) (m : Pattern w) :
    signBitSet w (packed w s e m) = decide (s < 0) ∧ rawExponent w (packed w s e m) = packedExponent w e ∧
      (rawSignificand w (packed w s e m)).toNat =
        (preSignificand w e m).toNat % 2 ^ (constants w).significandBits := by
  have hexp := packedExponent_lt w e
  have hsig := Nat.mod_lt (preSignificand w e m).toNat (Nat.two_pow_pos (constants w).significandBits)
  rw [Bool.eq_iff_iff, signBitSet_iff_le, decide_eq_true_iff, rawExponent_eq, rawSignificand_toNat, packed_toNat]
  generalize packedExponent w e = x at *
  generalize (preSignificand w e m).toNat % 2 ^ (constants w).significandBits = y at *
  refine ⟨?_, ?_, ?_⟩
  all_goals cases w <;> simp only [constants, Width.bits] at * <;> split <;> omega

/-- A value of `k + 1` bits has bit `k` set exactly from `2^k` up. -/
theorem getLsbD_iff_two_pow_le {n k : Nat} {m : BitVec n} (h : m.toNat < 2 ^ (k + 1)) :
    m.getLsbD k = true ↔ 2 ^ k ≤ m.toNat := by
  constructor
  · intro hbit
    exact Nat.ge_two_pow_of_testBit hbit
  · intro hle
    exact Nat.testBit_of_two_pow_le_and_two_pow_add_one_gt hle h

/-! ### DECOMP_W of a packed pattern -/

theorem decomp_packed_sign (w : Width) (s e : Int) (m : Pattern w) :
    (decomp w (packed w s e m)).sign = if s < 0 then -1 else 1 := by
  obtain ⟨hsign, -, -⟩ := rawFields_packed w s e m
  rw [decomp_sign, hsign, if_congr decide_eq_true_iff rfl rfl]

theorem decomp_packed_sign_eq_iff (w : Width) (s e : Int) (m : Pattern w) :
    (decomp w (packed w s e m)).sign = s ↔ s = 1 ∨ s = -1 := by
  rw [decomp_packed_sign]
  split <;> omega

/-- A valid exponent comes back (41_codec.md R134). -/
theorem decomp_packed_exponent {w : Width} {e : Int} (h : errExponent w e = false) (s : Int) (m : Pattern w) :
    (decomp w (packed w s e m)).exponent = e := by
  obtain ⟨-, hexp, -⟩ := rawFields_packed w s e m
  rw [decomp_exponent, hexp, packedExponent_of_valid h]
  omega

theorem decomp_packed_significand_toNat {w : Width} {e : Int} (h : errExponent w e = false) (s : Int) (m : Pattern w) :
    (decomp w (packed w s e m)).significand.toNat =
      if e = (constants w).expMin then 2 * (m.toNat / 2 % 2 ^ (constants w).significandBits)
      else m.toNat % 2 ^ (constants w).significandBits + 2 ^ (constants w).significandBits := by
  obtain ⟨-, -, hsig⟩ := rawFields_packed w s e m
  rw [decomp_significand_toNat, ← if_congr (decomp_exponent_eq_expMin_iff _ _) rfl rfl, decomp_packed_exponent h, hsig,
    preSignificand_toNat]
  split <;> rfl

/-- Which significands of `SB + 1` bits come back: the dropped bit must be 0, and the implicit bit must be materialised
(41_codec.md R134). -/
theorem decomp_packed_significand_eq_iff {w : Width} {e : Int} (h : errExponent w e = false) (s : Int) {m : Pattern w}
    (hm : m.toNat < 2 ^ ((constants w).significandBits + 1)) :
    (decomp w (packed w s e m)).significand = m ↔
      (e = (constants w).expMin → m.toNat % 2 = 0) ∧
        (e ≠ (constants w).expMin → m.getLsbD (constants w).significandBits = true) := by
  rw [← BitVec.toNat_inj, decomp_packed_significand_toNat h, getLsbD_iff_two_pow_le hm]
  rw [Nat.pow_succ] at hm
  by_cases he : e = (constants w).expMin
  · have hhalf : m.toNat / 2 % 2 ^ (constants w).significandBits = m.toNat / 2 := Nat.mod_eq_of_lt (by omega)
    simp only [he, hhalf, if_true, true_imp_iff, ne_eq, not_true, false_imp_iff, and_true]
    omega
  · simp only [he, if_false, false_imp_iff, ne_eq, not_false_iff, true_imp_iff, true_and]
    have := Nat.mod_lt m.toNat (Nat.two_pow_pos (constants w).significandBits)
    constructor
    · omega
    · intro hle
      rw [Nat.mod_eq_sub_mod hle, Nat.mod_eq_of_lt (by omega)]
      omega

/-! ### The diagnostic (41_codec.md R134) -/

/-- The diagnostic is the mismatch, in a build that computes it and without an error. -/
theorem recomp_diag_iff (w : Width) (p : Params) (s e : Int) (m : Pattern w) :
    (recomp w p s e m).diag = true ↔ p.hasDiag = true ∧ (recomp w p s e m).err = false ∧
      ((decomp w (packed w s e m)).sign ≠ s ∨ (decomp w (packed w s e m)).exponent ≠ e ∨
        (decomp w (packed w s e m)).significand ≠ m) := by
  simp only [recomp, diagFlag, Bool.and_eq_true, Bool.not_eq_true', decide_eq_true_eq, and_assoc]

/-- Without an error and with the default reading, the re-derived fields differ from the input exactly in the cases (a),
(b) and (c) of 41_codec.md R134. -/
theorem rederived_ne_iff {w : Width} {p : Params} (hp : p.flagImplicitBit = false) {s e : Int} {m : Pattern w}
    (h : errFlag w p e m = false) :
    ((decomp w (packed w s e m)).sign ≠ s ∨ (decomp w (packed w s e m)).exponent ≠ e ∨
        (decomp w (packed w s e m)).significand ≠ m) ↔
      (s ≠ 1 ∧ s ≠ -1) ∨ (e = (constants w).expMin ∧ m.toNat % 2 = 1) ∨
        (e ≠ (constants w).expMin ∧ m.getLsbD (constants w).significandBits = false) := by
  obtain ⟨hexp, hsig⟩ := (errFlag_eq_false_iff w p e m).mp h
  have hm : m.toNat < 2 ^ ((constants w).significandBits + 1) := by
    rw [← Bool.not_eq_true, errSignificand_iff, if_pos (.inr hp)] at hsig
    exact Nat.not_le.mp hsig
  rw [ne_eq, ne_eq, ne_eq, decomp_packed_sign_eq_iff, decomp_packed_exponent hexp,
    decomp_packed_significand_eq_iff hexp s hm]
  simp only [not_true, false_or, not_or, not_and_or, Classical.not_imp, Nat.mod_two_not_eq_zero, Bool.not_eq_true]

/-! ### RECOMP_W of DECOMP_W (41_codec.md R137) -/

theorem errExponent_decomp (w : Width) (u : Pattern w) : errExponent w (decomp w u).exponent = false :=
  (errExponent_eq_false_iff w _).mpr (decomp_exponent_range w u)

theorem packedExponent_decomp (w : Width) (u : Pattern w) :
    packedExponent w (decomp w u).exponent = rawExponent w u := by
  have h := packedExponent_of_valid (errExponent_decomp w u)
  rw [decomp_exponent] at *
  omega

/-- The prepared significand of a decomposed pattern is its raw one, below the implicit bit. -/
theorem preSignificand_decomp_mod (w : Width) (u : Pattern w) :
    (preSignificand w (decomp w u).exponent (decomp w u).significand).toNat % 2 ^ (constants w).significandBits =
      (rawSignificand w u).toNat := by
  have hlt := rawSignificand_lt w u
  rw [preSignificand_toNat, decomp_significand_toNat, if_congr (decomp_exponent_eq_expMin_iff w u) rfl rfl]
  split
  · rw [Nat.mul_div_cancel_left _ (by decide), Nat.mod_eq_of_lt hlt]
  · rw [Nat.add_mod_right, Nat.mod_eq_of_lt hlt]

/-- Packing undoes DECOMP_W: it puts each raw field back. -/
theorem packed_decomp (w : Width) (u : Pattern w) :
    packed w (decomp w u).sign (decomp w u).exponent (decomp w u).significand = u := by
  obtain ⟨hsign, hexp, hsig⟩ := rawFields_packed w (decomp w u).sign (decomp w u).exponent (decomp w u).significand
  refine eq_of_rawFields_eq ?_ (hexp.trans (packedExponent_decomp w u)) (hsig.trans (preSignificand_decomp_mod w u))
  rw [hsign, decomp_sign]
  cases signBitSet w u <;> rfl

theorem eq_of_decomp_fields_eq {w : Width} {u v : Pattern w} (hs : (decomp w v).sign = (decomp w u).sign)
    (he : (decomp w v).exponent = (decomp w u).exponent) (hm : (decomp w v).significand = (decomp w u).significand) :
    v = u := by
  rw [← packed_decomp w v, hs, he, hm, packed_decomp]

/-- Only the literal reading flags the fields of a pattern, and only where the implicit bit is materialised. -/
theorem errFlag_decomp (w : Width) (p : Params) (u : Pattern w) :
    errFlag w p (decomp w u).exponent (decomp w u).significand = true ↔
      p.flagImplicitBit = true ∧ (decomp w u).exponent ≠ (constants w).expMin := by
  have hlt := decomp_significand_lt w u
  rw [errFlag_iff, errExponent_decomp, errSignificand_iff]
  by_cases he : (decomp w u).exponent = (constants w).expMin
  · simp [he, Nat.not_le.mpr hlt]
  · cases hp : p.flagImplicitBit
    · simp [Nat.not_le.mpr hlt]
    · have hraw : rawExponent w u ≠ 0 := (decomp_exponent_eq_expMin_iff w u).not.mp he
      simp [he, decomp_significand_toNat, hraw]

/-- With the default reading the fields of a pattern are neither flagged nor diagnosed. -/
theorem recomp_decomp {p : Params} (hp : p.flagImplicitBit = false) (w : Width) (u : Pattern w) :
    recomp w p (decomp w u).sign (decomp w u).exponent (decomp w u).significand =
      { u := u, err := false, diag := false, rederived := decomp w u } := by
  have herr : errFlag w p (decomp w u).exponent (decomp w u).significand = false := by
    rw [← Bool.not_eq_true, errFlag_decomp]
    simp [hp]
  simp [recomp, packed_decomp, herr, diagFlag]

/-! ### The ports of a codec operation (41_codec.md R125 to R136) -/

theorem operandA_w64 (c : InPorts) : operandA .w64 c = c.a := BitVec.setWidth_eq _

theorem operandSignificand_w64 (c : InPorts) : operandSignificand .w64 c = c.fSig := BitVec.setWidth_eq _

theorem zext64_w64 (u : Pattern .w64) : zext64 u = u := BitVec.setWidth_eq _

theorem setWidth_bits_zext64 {w : Width} (u : Pattern w) : (zext64 u).setWidth w.bits = u :=
  (BitVec.setWidth_setWidth_of_le u (bits_le_64 w)).trans (BitVec.setWidth_eq u)

/-- Recompose drives the class and the fields of its re-derived pattern. -/
theorem recomposedPorts_report {w : Width} {x : Recomposed w} {u : Pattern w} (h : x.rederived = decomp w u) :
    (recomposedPorts x).oClass = classCode (decomp w u).cls ∧ (recomposedPorts x).oSign.toInt = (decomp w u).sign ∧
      (recomposedPorts x).oExp.toInt = (decomp w u).exponent ∧
      (recomposedPorts x).oSig.toNat = (decomp w u).significand.toNat := by
  rw [← h]
  have hexp : (exponentPort x.rederived.exponent).toInt = x.rederived.exponent := h ▸ exponentPort_decomp_toInt w u
  exact ⟨rfl, signPort_toInt (h ▸ decomp_sign_eq w u), hexp, zext64_toNat _⟩

/-- The field outputs of decompose, on the field inputs, are read as the fields (10_state.md R40, 30_encoding.md R75), so
recompose drives them again and the pattern with them. -/
theorem recomposedPorts_of_fieldPorts {w : Width} {u : Pattern w} {p : Params} {c : InPorts}
    (hp : p.flagImplicitBit = false) (hsign : c.fSign = (fieldPorts (decomp w u)).oSign)
    (hexp : c.fExp = (fieldPorts (decomp w u)).oExp) (hsig : c.fSig = (fieldPorts (decomp w u)).oSig) :
    recomposedPorts (recomp w p (operandSign c) (operandExponent c) (operandSignificand w c)) =
      { fieldPorts (decomp w u) with r := zext64 u } := by
  have hs : operandSign c = (decomp w u).sign :=
    (congrArg BitVec.toInt hsign).trans (signPort_toInt (decomp_sign_eq w u))
  have he : operandExponent c = (decomp w u).exponent :=
    (congrArg BitVec.toInt hexp).trans (exponentPort_decomp_toInt w u)
  have hm : operandSignificand w c = (decomp w u).significand :=
    (congrArg (BitVec.setWidth w.bits) hsig).trans (setWidth_bits_zext64 _)
  rw [hs, he, hm, recomp_decomp hp]
  rfl

/-! ### The statements -/

/-- Settles O28: packing undoes DECOMP_W, and the fields of a packed pattern are the packed ones where these are
canonical. -/
theorem codecRoundTripLaws : Obligations.CodecRoundTripLaws := by
  refine ⟨fun w p u => ⟨packed_decomp w u, congrArg (fun v => (decomp w v).cls) (packed_decomp w u), fun hp => ?_,
    fun hp => ?_⟩, fun w p s e m hcan => ?_⟩
  · rw [recomp_decomp hp]
    exact ⟨rfl, rfl⟩
  · exact (errFlag_decomp w p u).trans (and_iff_right hp)
  · obtain ⟨hs, hlo, hhi, hm, himplicit, heven⟩ := hcan
    have hexp : errExponent w e = false := (errExponent_eq_false_iff w e).mpr ⟨hlo, hhi⟩
    exact ⟨(decomp_packed_sign_eq_iff w s e m).mpr hs, decomp_packed_exponent hexp s m,
      (decomp_packed_significand_eq_iff hexp s hm).mpr ⟨heven, himplicit⟩⟩

/-- Settles O15: DECOMP_W by the raw fields, each of them a quotient or a remainder of the pattern. -/
theorem decompFieldsFromBits : Obligations.DecompFieldsFromBits := by
  intro w u
  dsimp only
  rw [← signBitSet_eq_getLsbD, ← rawExponent_eq, ← rawSignificand_toNat]
  exact ⟨decomp_sign w u, decomp_exponent w u, decomp_significand_toNat w u, decomp_cls w u⟩

/-- Settles O16: the raw fields of each class bound the fields, and the fields fix the pattern, which packing gives back. -/
theorem decompRangesAndInjectivity : Obligations.DecompRangesAndInjectivity := by
  intro w u
  dsimp only
  have hle := rawExponent_le w u
  have hlt := rawSignificand_lt w u
  have hexp := decomp_exponent w u
  have hsig := decomp_significand_toNat w u
  have hvalid := rawExpMaxValid_succ w
  have hpos := rawExpReserved_pos w
  rw [← rawExponent_eq, implicitBit_eq, expMin_eq, expNormalMin_eq, expMax_eq, expMaxReserved_eq,
    Nat.pow_succ]
  refine ⟨fun hc => ?_, fun hc => ?_, fun hc => ?_, fun hc => ?_, fun hc => ?_, ?_, decomp_sign_eq w u,
    fun v => eq_of_decomp_fields_eq⟩
  · obtain ⟨hraw, hm⟩ := (decomp_cls_eq_iff w u .zero).mp hc
    rw [if_pos hraw] at hsig
    omega
  · obtain ⟨hraw, hm⟩ := (decomp_cls_eq_iff w u .subnormal).mp hc
    rw [if_pos hraw] at hsig
    omega
  · obtain ⟨hraw, hres⟩ := (decomp_cls_eq_iff w u .normal).mp hc
    rw [if_neg hraw] at hsig
    omega
  · obtain ⟨hraw, hm⟩ := (decomp_cls_eq_iff w u .inf).mp hc
    rw [if_neg (by omega)] at hsig
    omega
  · obtain ⟨hraw, hm⟩ := (decomp_cls_eq_iff w u .nan).mp hc
    rw [if_neg (by omega)] at hsig
    omega
  · rw [decomp_sign, signBitSet_eq_getLsbD]
    split <;> simp [*]

/-- Settles O20: a legal output tuple has a class code of at most 4. -/
theorem classCodesAreFive : Obligations.ClassCodesAreFive := by
  refine ⟨rfl, rfl, rfl, rfl, rfl, fun p c o h => ?_⟩
  obtain ⟨hle, -⟩ := legalOutputs_of_evaluate h
  refine ⟨?_, ?_, ?_⟩
  all_goals
    intro heq
    rw [heq] at hle
    exact absurd hle (by decide)

/-- Settles O22: the exponent field of the packed pattern, for an exponent out of range and for one in it. -/
theorem exponentValidationSaturates : Obligations.ExponentValidationSaturates := by
  intro w p s e m
  obtain ⟨-, hfield, -⟩ := rawFields_packed w s e m
  dsimp only
  rw [← errExponent_iff, ← errExponent_eq_false_iff, ← rawExponent_eq, recomp_u, hfield]
  refine ⟨fun h => ⟨h, (errFlag_iff w p e m).mpr (.inl h), packedExponent_of_error h, ?_⟩,
    fun h => ⟨h, packedExponent_of_valid h⟩⟩
  have hraw := hfield.trans (packedExponent_of_error h)
  by_cases hsig : (rawSignificand w (packed w s e m)).toNat = 0
  · exact .inl ((decomp_cls_eq_iff w _ .inf).mpr ⟨hraw, hsig⟩)
  · exact .inr ((decomp_cls_eq_iff w _ .nan).mpr ⟨hraw, hsig⟩)

/-- Settles O23: the bound on the significand, and the significand field of the packed pattern. -/
theorem significandValidationMasks : Obligations.SignificandValidationMasks := by
  intro w p q s e m
  refine ⟨errSignificand_iff w p e m, (errFlag_iff w p e m).trans (or_congr_right (errSignificand_iff w p e m)), ?_, rfl⟩
  obtain ⟨-, -, hsig⟩ := rawFields_packed w s e m
  rw [rawSignificand_toNat, preSignificand_toNat] at hsig
  exact hsig

/-- Settles O24: `packed_toNat` with its exponent and significand written out; a re-derived sign is 1 or -1. -/
theorem signAndPacking : Obligations.SignAndPacking := by
  intro w p s s' e m
  obtain ⟨hsign, -, -⟩ := rawFields_packed w s e m
  refine ⟨?_, ?_, rfl, fun hp herr h1 h2 => ?_⟩
  · have h := packed_toNat w s e m
    rw [packedExponent_eq, preSignificand_toNat, ite_mul, one_mul, zero_mul] at h
    exact h
  · rw [← signBitSet_eq_getLsbD]
    exact (congrArg (· = true) hsign).to_iff.trans decide_eq_true_iff
  · have hsign : (decomp w (packed w s e m)).sign ≠ s :=
      (decomp_packed_sign_eq_iff w s e m).not.mpr (not_or.mpr ⟨h1, h2⟩)
    exact (recomp_diag_iff w p s e m).mpr ⟨hp, herr, .inl hsign⟩

/-- Settles O25: the port `r` holds the packed pattern, from which recompose re-derives what it reports. -/
theorem recomposeReportsItsOwnResult : Obligations.RecomposeReportsItsOwnResult := by
  refine fun s => ⟨⟨_, exec_eq_drive .rec32 s, ?_⟩, _, exec_eq_drive .rec64 s, ?_⟩
  · exact recomposedPorts_report (congrArg (decomp .w32) (setWidth_bits_zext64 _).symm)
  · exact recomposedPorts_report (congrArg (decomp .w64) (zext64_w64 _).symm)

/-- Settles O26: the mismatch, and by `rederived_ne_iff` the cases in which it happens without an error. -/
theorem diagnosticExactlyThreeCases : Obligations.DiagnosticExactlyThreeCases := by
  intro w p s e m
  refine ⟨recomp_diag_iff w p s e m, fun herr => ?_, ?_, fun _ => rfl,
    fun t => ⟨_, _, exec_eq_drive .rec32 t, exec_eq_drive .rec64 t, flagPort_eq_one, ?_⟩⟩
  · obtain ⟨hexp, -⟩ := (errFlag_eq_false_iff w p e m).mp herr
    exact decomp_packed_exponent hexp s m
  · rintro rfl herr
    rw [recomp_diag_iff, rederived_ne_iff rfl herr]
    exact (and_iff_right rfl).trans (and_iff_right herr)
  · rw [← operandSignificand_w64]
    exact flagPort_eq_one

/-- Settles O29: `recomposedPorts_of_fieldPorts`, with the operand of decompose as the pattern. -/
theorem decomposeThenRecomposeReturnsPattern : Obligations.DecomposeThenRecomposeReturnsPattern := by
  refine fun s => ⟨⟨_, exec_eq_drive .dec32 s, fun t hp hs he hm => ?_⟩, _, exec_eq_drive .dec64 s,
    fun t hp hs he hm => ?_⟩
  · rw [exec_eq_drive]
    exact congrArg (fun o => Host.Outcome.next (drive o t)) (recomposedPorts_of_fieldPorts hp hs he hm)
  · rw [exec_eq_drive, ← zext64_operandA_w64]
    exact congrArg (fun o => Host.Outcome.next (drive o t)) (recomposedPorts_of_fieldPorts hp hs he hm)

/-- Settles O18: no build leaves the two out, and at W = 64 operand and significand fill their ports. -/
theorem decomposeResult : Obligations.DecomposeResult := by
  refine ⟨fun p => ⟨decode_encode_of_wf (i := .dec32) rfl, decode_encode_of_wf (i := .dec64) rfl⟩,
    fun s => ⟨exec_eq_drive .dec32 s, ?_⟩⟩
  dsimp only
  rw [exec_eq_drive, ← operandA_w64, ← zext64_w64 (decomp _ _).significand]
  rfl

/-- Settles O19: no build leaves the two out, and both operations classify the same operand. -/
theorem classifyResult : Obligations.ClassifyResult := by
  refine ⟨fun p => ⟨decode_encode_of_wf (i := .cls32) rfl, decode_encode_of_wf (i := .cls64) rfl⟩,
    fun s => ⟨exec_eq_drive .cls32 s, ?_, ?_, ?_⟩⟩
  · rw [← operandA_w64]
    exact exec_eq_drive .cls64 s
  · exact ⟨_, _, exec_eq_drive .cls32 s, exec_eq_drive .dec32 s, rfl⟩
  · exact ⟨_, _, exec_eq_drive .cls64 s, exec_eq_drive .dec64 s, rfl⟩

/-- Settles O21: no build leaves the two out, and at W = 64 the significands and the pattern fill their ports. -/
theorem recomposeResult : Obligations.RecomposeResult := by
  refine ⟨fun p => ⟨decode_encode_of_wf (i := .rec32) rfl, decode_encode_of_wf (i := .rec64) rfl⟩,
    fun s => ⟨exec_eq_drive .rec32 s, ?_⟩⟩
  dsimp only
  rw [exec_eq_drive, ← operandSignificand_w64, ← zext64_w64 (recomp _ _ _ _ _).u,
    ← zext64_w64 (Decomposed.significand _)]
  rfl

end Sys2Proof.Machine
end

section
/-! SUPPORT. Proofs of the statements of 42_distance.md (R161 to R170): the class of a pattern by its magnitude, one equation
of DIST_W per kind of operands, and the laws that follow from them. The facts about a single pattern come first. -/

namespace Sys2Proof.Machine

/-! ### A pattern is its sign bit and its magnitude (42_distance.md R164) -/

theorem toNat_eq_sign_magnitude (w : Width) (u : Pattern w) :
    u.toNat = (if signBitSet w u = true then 2 ^ (w.bits - 1) else 0) + (magnitude w u).toNat := by
  have hlt := u.isLt
  rw [if_congr (signBitSet_iff_le w u) rfl rfl, magnitude_toNat]
  cases w <;> simp only [Width.bits] at * <;> split <;> omega

theorem toNat_eq_magnitude {w : Width} {u : Pattern w} (h : signBitSet w u = false) :
    u.toNat = (magnitude w u).toNat := by
  rw [toNat_eq_sign_magnitude, h, if_neg Bool.false_ne_true, Nat.zero_add]

theorem eq_of_sign_magnitude_eq {w : Width} {u v : Pattern w} (hs : signBitSet w u = signBitSet w v)
    (hm : (magnitude w u).toNat = (magnitude w v).toNat) : u = v := by
  apply BitVec.eq_of_toNat_eq
  rw [toNat_eq_sign_magnitude w u, toNat_eq_sign_magnitude w v, hs, hm]

/-- The sign field and the sign bit agree on which signs are the same (42_distance.md R165). -/
theorem decomp_sign_eq_sign_iff (w : Width) (u v : Pattern w) :
    (decomp w u).sign = (decomp w v).sign ↔ signBitSet w u = signBitSet w v := by
  rw [decomp_sign, decomp_sign]
  cases signBitSet w u <;> cases signBitSet w v <;> decide

theorem magnitude_or_signMask (w : Width) (u : Pattern w) : magnitude w (u ||| signMask w) = magnitude w u := by
  unfold magnitude
  rw [BitVec.and_or_distrib_right, BitVec.and_not_self]
  exact BitVec.or_zero

theorem signBitSet_or_signMask (w : Width) (u : Pattern w) : signBitSet w (u ||| signMask w) = true := by
  have hmask : (signMask w).getLsbD (w.bits - 1) = true := by cases w <;> decide
  rw [signBitSet_eq_getLsbD, BitVec.getLsbD_or, hmask, Bool.or_true]

/-! ### The class of a pattern by its magnitude (41_codec.md R123, R124) -/

theorem expMask_eq (w : Width) :
    (constants w).expMask = (constants w).rawExpReserved * 2 ^ (constants w).significandBits := by
  cases w <;> rfl

theorem magnitude_eq_rawFields (w : Width) (u : Pattern w) :
    (magnitude w u).toNat = rawExponent w u * 2 ^ (constants w).significandBits + (rawSignificand w u).toNat := by
  rw [magnitude_toNat, rawExponent_eq, rawSignificand_toNat]
  cases w <;> simp only [constants, Width.bits] <;> omega

theorem finitePattern_iff_rawExponent_ne (w : Width) (u : Pattern w) :
    FinitePattern w u ↔ rawExponent w u ≠ (constants w).rawExpReserved := by
  simp only [FinitePattern, Ne, decomp_cls_eq_iff, RawFieldsOfClass]
  tauto

/-- The finite patterns are those below the infinity, whatever the sign (42_distance.md R164). -/
theorem finitePattern_iff_magnitude_lt (w : Width) (u : Pattern w) :
    FinitePattern w u ↔ (magnitude w u).toNat < (constants w).expMask := by
  have hle := rawExponent_le w u
  have hlt := rawSignificand_lt w u
  rw [finitePattern_iff_rawExponent_ne, magnitude_eq_rawFields]
  cases w <;> simp only [constants] at * <;> omega

/-- Both infinities have the one magnitude `EXP_MASK`. -/
theorem magnitude_of_inf {w : Width} {u : Pattern w} (h : (decomp w u).cls = .inf) :
    (magnitude w u).toNat = (constants w).expMask := by
  obtain ⟨hexp, hsig⟩ := (decomp_cls_eq_iff w u .inf).mp h
  rw [magnitude_eq_rawFields, hexp, hsig, expMask_eq, Nat.add_zero]

/-- The same infinity twice, by the patterns. -/
theorem inf_inf_same_sign_iff_eq {w : Width} {x y : Pattern w} (h : (decomp w x).cls = .inf ∨ (decomp w y).cls = .inf) :
    ((decomp w x).cls = .inf ∧ (decomp w y).cls = .inf ∧ signBitSet w x = signBitSet w y) ↔ x = y := by
  constructor
  · rintro ⟨hx, hy, hs⟩
    exact eq_of_sign_magnitude_eq hs ((magnitude_of_inf hx).trans (magnitude_of_inf hy).symm)
  · rintro rfl
    exact ⟨or_self_iff.mp h, or_self_iff.mp h, rfl⟩

/-! ### DIST_W, kind of operands by kind (42_distance.md R160 to R166) -/

/-- The three kinds of operands that DIST_W tells apart. -/
theorem nan_or_inf_or_finite (w : Width) (x y : Pattern w) :
    ((decomp w x).cls = .nan ∨ (decomp w y).cls = .nan) ∨
    (((decomp w x).cls ≠ .nan ∧ (decomp w y).cls ≠ .nan) ∧ ((decomp w x).cls = .inf ∨ (decomp w y).cls = .inf)) ∨
    (FinitePattern w x ∧ FinitePattern w y) := by
  unfold FinitePattern
  tauto

theorem ulpDistance_of_nan {w : Width} {x y : Pattern w} (h : (decomp w x).cls = .nan ∨ (decomp w y).cls = .nan) :
    ulpDistance w x y = uintMax w := if_pos h

theorem ulpDistance_of_inf {w : Width} {x y : Pattern w} (hx : (decomp w x).cls ≠ .nan) (hy : (decomp w y).cls ≠ .nan)
    (h : (decomp w x).cls = .inf ∨ (decomp w y).cls = .inf) :
    ulpDistance w x y = if x = y then 0 else uintMax w := by
  rw [← if_congr (inf_inf_same_sign_iff_eq h) rfl rfl]
  exact (if_neg (not_or.mpr ⟨hx, hy⟩)).trans (if_pos h)

/-- The test of step 4 finds the zeros, `+0.0` and `-0.0` in any combination (42_distance.md R163). -/
theorem magnitude_or_eq_zero_iff (w : Width) (x y : Pattern w) :
    magnitude w (x ||| y) = 0 ↔ (magnitude w x).toNat = 0 ∧ (magnitude w y).toNat = 0 := by
  unfold magnitude
  rw [BitVec.and_or_distrib_right]
  simp [← BitVec.toNat_inj, Nat.or_eq_zero_iff]

/-- Steps 4 to 7: one formula, which no magnitudes make wrap, and which step 4 agrees with (42_distance.md R163). -/
theorem ulpDistance_finite_toNat {w : Width} {x y : Pattern w} (hx : FinitePattern w x) (hy : FinitePattern w y) :
    (ulpDistance w x y).toNat =
      if signBitSet w x = signBitSet w y then
        (if (magnitude w x).toNat ≥ (magnitude w y).toNat then (magnitude w x).toNat - (magnitude w y).toNat
          else (magnitude w y).toNat - (magnitude w x).toNat)
      else (magnitude w x).toNat + (magnitude w y).toNat := by
  have hxlt := (finitePattern_iff_magnitude_lt w x).mp hx
  have hylt := (finitePattern_iff_magnitude_lt w y).mp hy
  have hfit : 2 * (constants w).expMask ≤ 2 ^ w.bits := by cases w <;> decide
  obtain ⟨hxn, hxi⟩ := hx
  obtain ⟨hyn, hyi⟩ := hy
  simp only [ulpDistance, hxn, hyn, hxi, hyi, or_self, if_false]
  by_cases hzero : x = y ∨ magnitude w (x ||| y) = 0
  · rw [if_pos hzero]
    rw [magnitude_or_eq_zero_iff] at hzero
    obtain rfl | ⟨hx0, hy0⟩ := hzero
    · simp
    · simp [hx0, hy0]
  · rw [if_neg hzero, apply_ite BitVec.toNat, apply_ite BitVec.toNat, BitVec.toNat_ofNat, BitVec.toNat_ofNat,
      BitVec.toNat_ofNat, Nat.mod_eq_of_lt (by omega), Nat.mod_eq_of_lt (by omega), Nat.mod_eq_of_lt (by omega)]

/-! ### What follows from the three equations (42_distance.md R167, R170) -/

theorem uintMax_toNat (w : Width) : (uintMax w).toNat = (constants w).uintMax := by
  cases w <;> rfl

theorem uintMax_eq_allOnes (w : Width) : uintMax w = BitVec.allOnes w.bits := by
  cases w <;> rfl

/-- The bound of R167 lies below `UINT_MAX`. -/
theorem two_mul_expMask_pred_lt_uintMax (w : Width) : 2 * ((constants w).expMask - 1) < (constants w).uintMax := by
  cases w <;> decide

theorem ulpDistance_finite_le {w : Width} {x y : Pattern w} (hx : FinitePattern w x) (hy : FinitePattern w y) :
    (ulpDistance w x y).toNat ≤ 2 * ((constants w).expMask - 1) := by
  have hxlt := (finitePattern_iff_magnitude_lt w x).mp hx
  have hylt := (finitePattern_iff_magnitude_lt w y).mp hy
  rw [ulpDistance_finite_toNat hx hy]
  split
  · split <;> omega
  · omega

theorem ulpDistance_eq_uintMax_iff (w : Width) (x y : Pattern w) :
    (ulpDistance w x y).toNat = (constants w).uintMax ↔
      (decomp w x).cls = .nan ∨ (decomp w y).cls = .nan ∨
        (((decomp w x).cls = .inf ∨ (decomp w y).cls = .inf) ∧ x ≠ y) := by
  have hbound := two_mul_expMask_pred_lt_uintMax w
  obtain hnan | ⟨⟨hx, hy⟩, hinf⟩ | ⟨hx, hy⟩ := nan_or_inf_or_finite w x y
  · rw [ulpDistance_of_nan hnan, uintMax_toNat, ← or_assoc]
    exact iff_of_true rfl (.inl hnan)
  · rw [ulpDistance_of_inf hx hy hinf, apply_ite BitVec.toNat, uintMax_toNat]
    have hpos : 0 ≠ (constants w).uintMax := by omega
    simp [hx, hy, hinf, hpos]
  · have hle := ulpDistance_finite_le hx hy
    obtain ⟨hxn, hxi⟩ := hx
    obtain ⟨hyn, hyi⟩ := hy
    refine iff_of_false (by omega) ?_
    simp [hxn, hyn, hxi, hyi]

theorem ulpDistance_comm (w : Width) (x y : Pattern w) : ulpDistance w x y = ulpDistance w y x := by
  obtain hnan | ⟨⟨hx, hy⟩, hinf⟩ | ⟨hx, hy⟩ := nan_or_inf_or_finite w x y
  · rw [ulpDistance_of_nan hnan, ulpDistance_of_nan hnan.symm]
  · rw [ulpDistance_of_inf hx hy hinf, ulpDistance_of_inf hy hx hinf.symm, if_congr eq_comm rfl rfl]
  · apply BitVec.eq_of_toNat_eq
    rw [ulpDistance_finite_toNat hx hy, ulpDistance_finite_toNat hy hx]
    by_cases hs : signBitSet w x = signBitSet w y
    · rw [if_pos hs, if_pos hs.symm]
      split <;> split <;> omega
    · rw [if_neg hs, if_neg (Ne.symm hs), Nat.add_comm]

theorem ulpDistance_self {w : Width} {x : Pattern w} (h : (decomp w x).cls ≠ .nan) : ulpDistance w x x = 0 := by
  by_cases hinf : (decomp w x).cls = .inf
  · rw [ulpDistance_of_inf h h (.inl hinf), if_pos rfl]
  · apply BitVec.eq_of_toNat_eq
    rw [ulpDistance_finite_toNat ⟨h, hinf⟩ ⟨h, hinf⟩]
    simp

/-- Patterns of one sign that are `n` apart have magnitudes that are `n` apart. -/
theorem magnitude_add_of_toNat_add {w : Width} {x y : Pattern w} {n : Nat} (hs : signBitSet w x = signBitSet w y)
    (h : y.toNat = x.toNat + n) : (magnitude w y).toNat = (magnitude w x).toNat + n := by
  rw [toNat_eq_sign_magnitude w x, toNat_eq_sign_magnitude w y, hs] at h
  omega

theorem ulpDistance_of_toNat_add {w : Width} {x y : Pattern w} {n : Nat} (hx : FinitePattern w x)
    (hy : FinitePattern w y) (hs : signBitSet w x = signBitSet w y) (h : y.toNat = x.toNat + n) :
    (ulpDistance w x y).toNat = n := by
  have hmag := magnitude_add_of_toNat_add hs h
  rw [ulpDistance_finite_toNat hx hy, if_pos hs]
  split <;> omega

/-- Across zero: one operand is a negated pattern, and both are at their magnitude from zero. -/
theorem ulpDistance_or_signMask {w : Width} {m q : Pattern w} (hm : FinitePattern w m) (hq : FinitePattern w q)
    (hms : signBitSet w m = false) (hqs : signBitSet w q = false) :
    (ulpDistance w (m ||| signMask w) q).toNat = m.toNat + q.toNat := by
  have hneg : FinitePattern w (m ||| signMask w) := by
    rwa [finitePattern_iff_magnitude_lt, magnitude_or_signMask, ← finitePattern_iff_magnitude_lt]
  rw [ulpDistance_finite_toNat hneg hq, signBitSet_or_signMask, hqs, if_neg (by decide), magnitude_or_signMask,
    toNat_eq_magnitude hms, toNat_eq_magnitude hqs]

theorem operandB_w64 (c : InPorts) : operandB .w64 c = c.b := BitVec.setWidth_eq _

/-! ### The statements -/

/-- Settles O31: the equations for a NaN and for an infinity, with `UINT_MAX` as all ones, and what `dst` drives. -/
theorem distanceOfNanAndInfinity : Obligations.DistanceOfNanAndInfinity := by
  intro w x y
  dsimp only
  rw [← uintMax_eq_allOnes, ← signBitSet_eq_getLsbD, ← signBitSet_eq_getLsbD]
  refine ⟨ulpDistance_of_nan, fun hx hy h => ?_, fun i s hi => ?_⟩
  · rw [ulpDistance_of_inf hx hy h, if_congr (inf_inf_same_sign_iff_eq h) rfl rfl]
  · obtain rfl | rfl := hi
    · exact ⟨_, exec_eq_drive .dst32 s, rfl, rfl, rfl⟩
    · exact ⟨_, exec_eq_drive .dst64 s, rfl, rfl, rfl⟩

/-- Settles O32: finite magnitudes lie below `EXP_MASK`, and the formula gives 0 for equal patterns and for zeros. -/
theorem distanceOfFiniteOperands : Obligations.DistanceOfFiniteOperands := by
  intro w x y hx hy
  dsimp only
  have hxlt := (finitePattern_iff_magnitude_lt w x).mp hx
  have hylt := (finitePattern_iff_magnitude_lt w y).mp hy
  rw [← signBitSet_eq_getLsbD, ← signBitSet_eq_getLsbD, ← magnitude_toNat, ← magnitude_toNat]
  refine ⟨by omega, by omega, ulpDistance_finite_toNat hx hy, decomp_sign_eq_sign_iff w x y, ?_⟩
  rintro (rfl | ⟨hx0, hy0⟩)
  · obtain ⟨hnan, -⟩ := hx
    exact ulpDistance_self hnan
  · apply BitVec.eq_of_toNat_eq
    rw [ulpDistance_finite_toNat hx hy]
    simp [hx0, hy0]

/-- Settles O33: the bound on finite operands lies below `UINT_MAX`, which leaves it to the other two kinds. -/
theorem distanceNeverWraps : Obligations.DistanceNeverWraps :=
  fun w x y => ⟨ulpDistance_finite_le, two_mul_expMask_pred_lt_uintMax w, ulpDistance_eq_uintMax_iff w x y⟩

/-- Settles O34: each law is a lemma above; the two zeros are the case `0 + 0` across zero. -/
theorem distanceLaws : Obligations.DistanceLaws := by
  intro w
  simp only [← signBitSet_eq_getLsbD]
  refine ⟨ulpDistance_comm w, fun x => ulpDistance_self, ?_, fun x y n => ulpDistance_of_toNat_add,
    fun m q => ulpDistance_or_signMask⟩
  have hzero : FinitePattern w 0 := by
    unfold FinitePattern
    cases w <;> decide
  have hplus : signBitSet w 0 = false := by cases w <;> decide
  have h := ulpDistance_or_signMask hzero hzero hplus hplus
  rw [ulpDistance_comm]
  apply BitVec.eq_of_toNat_eq
  simpa using h

/-- Settles O30: no build leaves the two out, and at W = 64 operands and distance fill their ports. -/
theorem distanceResult : Obligations.DistanceResult := by
  refine ⟨fun p => ⟨decode_encode_of_wf (i := .dst32) rfl, decode_encode_of_wf (i := .dst64) rfl⟩,
    fun s => ⟨exec_eq_drive .dst32 s, ?_⟩⟩
  rw [exec_eq_drive, ← operandA_w64, ← operandB_w64, ← zext64_w64 (ulpDistance _ _ _)]
  rfl

end Sys2Proof.Machine
end

section
/-! SUPPORT. Proofs of the statements of 60_exceptions.md (R180, R184, R186): an illegal select drives `o_illegal` alone, how
conditions combine in one command, and the one way a step can stop. -/

namespace Sys2Proof.Machine

/-! ### Both saturations of recompose at once (60_exceptions.md R186) -/

theorem errExponent_expMin (w : Width) : errExponent w (constants w).expMin = false := by
  cases w <;> rfl

/-- An exponent out of range is not `EXP_MIN`, so its significand is not halved. -/
theorem preSignificand_of_error {w : Width} {e : Int} (h : errExponent w e = true) (m : Pattern w) :
    preSignificand w e m = m := by
  refine if_neg fun he => ?_
  rw [he, errExponent_expMin] at h
  cases h

/-! ### A command after another one (60_exceptions.md R184) -/

/-- Whatever another command left on the ports, a presented command overwrites it. -/
theorem step_drive_capture_of_present {s : State} {c d : InPorts} {rest : List HostAction} (o : OutPorts)
    (h : s.schedule = .present d :: rest) : step (drive o (capture c s)) = step s := by
  obtain ⟨o', he, hstep⟩ := step_present h
  exact (step_present_of_evaluate (s := drive o (capture c s)) h he).trans hstep.symm

/-! ### The host's read: it may stop the machine (70_reset_and_hazards.md R211) -/

/-- A read keeps the tuple that is visible, and is the fault exactly where none is. -/
theorem sampleOutputs_cases (s : State) :
    (∃ o, visibleOutputs s = some o ∧ sampleOutputs s = .next (collect o s)) ∨
      (sampleOutputs s = .fault .outputsNotValid ∧ s.out = none ∧ Config.pLatency ≠ 0) := by
  unfold sampleOutputs
  cases hv : visibleOutputs s with
  | some o => exact .inl ⟨o, rfl, rfl⟩
  | none => exact .inr ⟨rfl, (visibleOutputs_eq_none_iff s).mp hv⟩

theorem step_of_schedule_nil {s : State} (h : s.schedule = []) : step s = .next s := by
  unfold step
  rw [h]

/-! ### The statements -/

/-- Settles O39: every output tuple is legal, and a clamped exponent leaves the significand to the mask alone. -/
theorem simultaneousConditions : Obligations.SimultaneousConditions := by
  refine ⟨fun p c => ?_, fun w p s e m hexp _ => ?_⟩
  · obtain ⟨o, ho⟩ := evaluate_isSome p c
    obtain ⟨-, -, herr, hillegal⟩ := legalOutputs_of_evaluate ho
    exact ⟨o, ho, hillegal, herr⟩
  · have herr : (recomp w p s e m).err = true := (errFlag_iff w p e m).mpr (.inl hexp)
    obtain ⟨-, hfield, hsig⟩ := rawFields_packed w s e m
    rw [rawExponent_eq, packedExponent_of_error hexp] at hfield
    rw [rawSignificand_toNat, preSignificand_of_error hexp] at hsig
    exact ⟨herr, recomp_diag_of_err herr, hfield, hsig⟩

/-- Settles O40: of the host's actions only a read can stop, by `sampleOutputs_cases`. -/
theorem nothingStopsButPrematureRead : Obligations.NothingStopsButPrematureRead := by
  intro s
  cases hs : s.schedule with
  | nil => exact .inl ⟨s, step_of_schedule_nil hs⟩
  | cons act rest =>
    cases act with
    | present c =>
      obtain ⟨o, -, hstep⟩ := step_present hs
      exact .inl ⟨_, hstep⟩
    | sample =>
      have hstep : step s = sampleOutputs { s with schedule := rest } := step_of_schedule hs
      obtain ⟨o, -, hread⟩ | ⟨hfault, hout, hlat⟩ := sampleOutputs_cases { s with schedule := rest }
      · exact .inl ⟨_, hstep.trans hread⟩
      · exact .inr ⟨hstep.trans hfault, hout, hlat, rest, rfl⟩
    | assertReset => exact .inl ⟨_, step_of_schedule hs⟩

/-- Settles O5: an illegal command's outputs are `illegalPorts`, and a command presented next finds only ports and outputs
changed. -/
theorem illegalSelectDrivesIllegalOnly : Obligations.IllegalSelectDrivesIllegalOnly :=
  fun _ _ _ _ hs hd => ⟨_, step_present_of_evaluate hs (evaluate_of_decode_error hd), rfl,
    fun _ _ hrest => step_drive_capture_of_present illegalPorts hrest⟩

end Sys2Proof.Machine
end

section
/-! SUPPORT. Proofs of the statements of 70_reset_and_hazards.md (R210, R211): what the steps that present no command do, and
that a reset leaves no trace in the command after it. -/

namespace Sys2Proof.Machine

/-! ### An asserted reset (70_reset_and_hazards.md R210) -/

theorem step_assertReset {s : State} {rest : List HostAction} (h : s.schedule = .assertReset :: rest) :
    step s = .next (resetOutputs { s with schedule := rest }) :=
  step_of_schedule h

/-- A reset touches the outputs alone, and a presented command drives them over. -/
theorem step_resetOutputs_of_present {s : State} {c : InPorts} {rest : List HostAction}
    (h : s.schedule = .present c :: rest) : step (resetOutputs s) = step s := by
  obtain ⟨o, he, hstep⟩ := step_present h
  exact (step_present_of_evaluate (s := resetOutputs s) h he).trans hstep.symm

/-! ### A read of unspecified outputs (70_reset_and_hazards.md R211) -/

/-- A combinational block answers with the function of its ports; with latency there is nothing to read. -/
theorem step_sample_of_out_none {s : State} {o : OutPorts} {rest : List HostAction}
    (hs : s.schedule = .sample :: rest) (ho : s.out = none) (he : evaluate s.params s.inp = some o) :
    step s = if Config.pLatency = 0 then .next (collect o { s with schedule := rest }) else .fault .outputsNotValid := by
  have hvis := visibleOutputs_of_out_none (s := { s with schedule := rest }) ho
  rw [step_of_schedule hs]
  by_cases hl : Config.pLatency = 0
  · rw [if_pos hl] at hvis ⊢
    simp only [runAction, sampleOutputs, hvis, he]
  · rw [if_neg hl] at hvis ⊢
    simp only [runAction, sampleOutputs, hvis]

/-! ### The statements -/

/-- Settles O46: the reset's next state is `resetOutputs` of the state that presents the command at once. -/
theorem resetHasNoVisibleEffect : Obligations.ResetHasNoVisibleEffect :=
  fun s c rest hs =>
    ⟨_, step_assertReset hs, step_resetOutputs_of_present (s := { s with schedule := .present c :: rest }) rfl⟩

/-- Settles O7: one rule of the step for each case; a read of unspecified outputs has the outputs of the command on the
ports, which always exist. -/
theorem stepsOfOtherHostActions : Obligations.StepsOfOtherHostActions := by
  refine fun s rest => ⟨step_of_schedule_nil, step_assertReset, fun _ => step_sample_of_out_some, fun hs ho => ?_⟩
  obtain ⟨o, he⟩ := evaluate_isSome s.params s.inp
  exact ⟨o, he, step_sample_of_out_none hs ho he⟩

end Sys2Proof.Machine
end
